-- ==== Sys2Proof/Word.lean ====
section
/-! DEFINITION. The word types of the machine (spec/00_scope.md R11, R13, R14). Everything is unsigned. -/

namespace Sys2Proof

/-- One byte: a general register, a memory cell, a timer (R20, R50, R25). -/
abbrev Byte := BitVec 8

/-- Sixteen bits: `pc`, `I`, a call-stack entry, an instruction word (R22, R24, R27, R70). -/
abbrev Word := BitVec 16

/-- A register number, the fields `X` and `Y` of an instruction (R20, R74). -/
abbrev RegIdx := Fin 16

/-- A key number, 0x0 to 0xF (R28). -/
abbrev KeyIdx := Fin 16

/-- The horizontal coordinate of a pixel of the framebuffer (R150). -/
abbrev PixX := Fin 64

/-- The vertical coordinate of a pixel of the framebuffer (R150). -/
abbrev PixY := Fin 32

end Sys2Proof
end

