-- ==== Sys2Proof/Config.lean ====
section
/-! DEFINITION. The fixed sizes of spec/00_scope.md R11 and the machine's one free value, the random source (R12, R142). -/

namespace Sys2Proof

/-- `MEM_SIZE`: addresses 0x000 to 0xFFF exist (R11, R50). -/
@[simp] def Config.memSize : Nat := 4096

/-- `PROG_BASE`: where a program is loaded (R11, R51). -/
@[simp] def Config.progBase : Nat := 0x200

/-- `MAX_PROG_LEN`: 4096 - 0x200 bytes (R11, R263). -/
@[simp] def Config.maxProgLen : Nat := 3584

/-- `GLYPH_STRIDE`: five bytes a glyph (R11, R38, R216). -/
@[simp] def Config.glyphStride : Nat := 5

/-- `STACK_DEPTH`: the number of call-stack entries (R11, R27). -/
@[simp] def Config.stackDepth : Nat := 16

/-- `FB_WIDTH` (R11, R150). -/
@[simp] def Config.fbWidth : Nat := 64

/-- `FB_HEIGHT` (R11, R150). -/
@[simp] def Config.fbHeight : Nat := 32

/-- The random source `RNG` of R142, with no body: `Config.rng k` is the value that the `k`-th executed RND draws.
The spec bounds it (0 to 254, R142) and gives no law that relates one draw to another, so the bound is in the type and nothing
else is known. DESIGN CHOICE (log entry 1): which draw a Step takes is read from the counter `State.draws`. -/
opaque Config.rng : Nat → Fin 255

end Sys2Proof
end

