-- ==== Sys2Proof/Machine/Params.lean ====
section
/-! DEFINITION. The named parameters of spec/00_scope.md R12 that have one value in this model, and the reset contents of memory
(10_state.md R38, R31). They stand under Machine/ so that a repair may mend a value. -/

namespace Sys2Proof.Machine

/-- `CHG_AT_RESET`, open in the spec ("open parameter CHG_AT_RESET in 0, 1 with suggested default 0", R261). DESIGN CHOICE: the
suggested default (log entry 2). Nothing stated about reset may rest on it; `State.resetWith` takes either value. -/
def chgAtReset : Bool := false

/-- `INDEX_OVF_LIMIT`, past which ADD I,Vx reports overflow (R215). PRESUMED: the spec decides 0x0FFF from general knowledge
(D15, log entry 5); the other candidate is 0xFFFF. -/
def indexOvfLimit : Nat := 0x0FFF

/-- The glyphs of the digits 0 to F, five rows each, top row first (R38). PRESUMED: the spec takes the byte values from general
knowledge (D22, log entry 4). -/
def glyphs : List (List Byte) :=
  [[0xF0, 0x90, 0x90, 0x90, 0xF0], [0x20, 0x60, 0x20, 0x20, 0x70], [0xF0, 0x10, 0xF0, 0x80, 0xF0], [0xF0, 0x10, 0xF0, 0x10, 0xF0]] ++
  [[0x90, 0x90, 0xF0, 0x10, 0x10], [0xF0, 0x80, 0xF0, 0x10, 0xF0], [0xF0, 0x80, 0xF0, 0x90, 0xF0], [0xF0, 0x10, 0x20, 0x40, 0x40]] ++
  [[0xF0, 0x90, 0xF0, 0x90, 0xF0], [0xF0, 0x90, 0xF0, 0x10, 0xF0], [0xF0, 0x90, 0xF0, 0x90, 0x90], [0xE0, 0x90, 0xE0, 0x90, 0xE0]] ++
  [[0xF0, 0x80, 0x80, 0x80, 0xF0], [0xE0, 0x90, 0x90, 0x90, 0xE0], [0xF0, 0x80, 0xF0, 0x80, 0xF0], [0xF0, 0x80, 0xF0, 0x80, 0x80]]

/-- The reset contents of memory: "the glyph for digit `d` occupies addresses `5*d` to `5*d + 4`" (R38), "every other byte is 0"
(R31). This is what an address that `State.mem` does not list reads as (log entry 22). -/
def initialByte (a : Nat) : Byte := (glyphs.getD (a / 5) []).getD (a % 5) 0

end Sys2Proof.Machine
end

