-- ==== Sys2Proof/Machine/Flags.lean ====
section
/-! DEFINITION. Every value that an instruction writes to VF as a flag (10_state.md R21, R23). There is no flags register (R23). -/

namespace Sys2Proof.Machine

/-- A yes/no flag as the byte 1 or 0. -/
def flagByte (b : Bool) : Byte := if b then 1 else 0

/-- The result of an addition, modulo 256 (R121, R126, R131). -/
def sum8 (a b : Byte) : Byte := BitVec.ofNat 8 (a.toNat + b.toNat)

/-- "1 if a + b > 255 else 0" (R126). -/
def carryFlag (a b : Byte) : Byte := flagByte (decide (a.toNat + b.toNat > 255))

/-- The result of `a - b`, modulo 256 (R127, R131). -/
def diff8 (a b : Byte) : Byte := BitVec.ofInt 8 (a.toNat - b.toNat)

/-- The flag of `a - b`: "0 if b > a else 1" (R127, R129). -/
def notBorrowFlag (a b : Byte) : Byte := flagByte (!decide (b.toNat > a.toNat))

/-- The result of a right shift by one (R128). -/
def shiftRight8 (b : Byte) : Byte := b >>> 1

/-- The flag of SHR: the input with bit 0 forced to 1, "8-bit value, NOT b & 1" (R128). -/
def shrFlag (b : Byte) : Byte := b ||| 1

/-- The result of a left shift by one, modulo 256 (R130). -/
def shiftLeft8 (b : Byte) : Byte := b <<< 1

/-- The flag of SHL: bit 7 of the input as 0 or 1 (R130; D11, log entry 15). -/
def shlFlag (b : Byte) : Byte := flagByte (b.getLsbD 7)

/-- The sum of ADD I,Vx, over the integers (R215). -/
def indexSum (i : Word) (v : Byte) : Nat := i.toNat + v.toNat

/-- The flag of ADD I,Vx: "1 if s > INDEX_OVF_LIMIT else 0" (R215). -/
def indexOvfFlag (i : Word) (v : Byte) : Byte := flagByte (decide (indexSum i v > indexOvfLimit))

end Sys2Proof.Machine
end

