-- ==== Sys2Proof/Syntax.lean ====
section
/-! DEFINITION. The instructions: one constructor per row of spec/opcode_table.json, in the table's order (30_encoding.md R76).
Operands are what the fields of R72 are used as (R74): register numbers, an 8-bit immediate, a 12-bit address, a count. Bits that
dispatch does not examine (R77) are no operand. -/

namespace Sys2Proof

/-- The 33 instruction forms (R2, R76). -/
inductive Instr where
  /-- 00E0, clear the framebuffer (R151). -/
  | cls
  /-- 00EE, return (R103). -/
  | ret
  /-- 1NNN, jump (R104). -/
  | jp (nnn : BitVec 12)
  /-- 2NNN, call (R105). -/
  | call (nnn : BitVec 12)
  /-- 3XNN, skip if `Vx` equals the immediate (R106). -/
  | seImm (x : RegIdx) (nn : Byte)
  /-- 4XNN, skip if `Vx` differs from the immediate (R107). -/
  | sneImm (x : RegIdx) (nn : Byte)
  /-- 5XY0, skip if the registers are equal (R108). -/
  | seReg (x y : RegIdx)
  /-- 6XNN, load an immediate (R120). -/
  | ldImm (x : RegIdx) (nn : Byte)
  /-- 7XNN, add an immediate, no flag (R121). -/
  | addImm (x : RegIdx) (nn : Byte)
  /-- 8XY0, copy a register (R122). -/
  | ldReg (x y : RegIdx)
  /-- 8XY1, bitwise OR, VF reset (R123). -/
  | orReg (x y : RegIdx)
  /-- 8XY2, bitwise AND, VF reset (R124). -/
  | andReg (x y : RegIdx)
  /-- 8XY3, bitwise XOR, VF reset (R125). -/
  | xorReg (x y : RegIdx)
  /-- 8XY4, add, carry into VF (R126). -/
  | addReg (x y : RegIdx)
  /-- 8XY5, `Vx - Vy`, not-borrow into VF (R127). -/
  | sub (x y : RegIdx)
  /-- 8XY6, `Vy` shifted right into `Vx` (R128). -/
  | shr (x y : RegIdx)
  /-- 8XY7, `Vy - Vx`, not-borrow into VF (R129). -/
  | subn (x y : RegIdx)
  /-- 8XYE, `Vy` shifted left into `Vx` (R130). -/
  | shl (x y : RegIdx)
  /-- 9XY0, skip if the registers differ (R109). -/
  | sneReg (x y : RegIdx)
  /-- ANNN, set the index register (R140). -/
  | ldI (nnn : BitVec 12)
  /-- CXNN, masked random byte (R141). -/
  | rnd (x : RegIdx) (nn : Byte)
  /-- DXYN, draw a sprite of `n` rows (R152). The count is a number 0 to 15 (R74), which `Instr.WellFormed` checks. -/
  | drw (x y : RegIdx) (n : Nat)
  /-- EX9E, skip if the key is pressed (R190). -/
  | skp (x : RegIdx)
  /-- EXA1, skip if the key is not pressed (R191). -/
  | sknp (x : RegIdx)
  /-- FX07, read the delay timer (R200). -/
  | ldFromDT (x : RegIdx)
  /-- FX0A, poll for a held key (R192). -/
  | ldKey (x : RegIdx)
  /-- FX15, write the delay timer (R201). -/
  | ldDT (x : RegIdx)
  /-- FX18, write the sound timer (R202). -/
  | ldST (x : RegIdx)
  /-- FX1E, add to the index register, overflow into VF (R215). -/
  | addI (x : RegIdx)
  /-- FX29, glyph address into the index register (R216). -/
  | ldF (x : RegIdx)
  /-- FX33, three decimal digits to memory (R217). -/
  | ldB (x : RegIdx)
  /-- FX55, store V0 to Vx (R218). -/
  | storeRegs (x : RegIdx)
  /-- FX65, load V0 to Vx (R219). -/
  | loadRegs (x : RegIdx)
  deriving DecidableEq, Repr

end Sys2Proof
end

