-- ==== Sys2Proof/Decode.lean ====
section
/-! DEFINITION. From bytes to an instruction and back (30_encoding.md). The decoder is total: a word that is no instruction is
rejected by name. After it stand the encoder, the rows of the opcode map R76, and the assembler spelling of R81. -/

namespace Sys2Proof

/-- Why the decoder rejects its input. -/
inductive DecodeError where
  /-- The word matches no row of R76 (R78). -/
  | invalidOpcode (w : Word)
  /-- Fewer than the two bytes of an instruction word were given (R70). No Step meets this: fetch gives two bytes or raises. -/
  | truncated
  deriving DecidableEq, Repr

/-- The structured view of one word, all fields produced for every word (R72). `full` is the "full value". -/
structure Fields where
  full : Word
  T : Fin 16
  X : RegIdx
  Y : RegIdx
  N : Fin 16
  NN : Byte
  NNN : BitVec 12
  deriving DecidableEq, Repr

/-- The decoder's field extraction: `T = w[15:12]`, `X = w[11:8]`, `Y = w[7:4]`, `N = w[3:0]`, `NN = w[7:0]`, `NNN = w[11:0]` (R72). -/
def fields (w : Word) : Fields :=
  { full := w
    T := (w.extractLsb' 12 4).toFin
    X := (w.extractLsb' 8 4).toFin
    Y := (w.extractLsb' 4 4).toFin
    N := (w.extractLsb' 0 4).toFin
    NN := w.extractLsb' 0 8
    NNN := w.extractLsb' 0 12 }

/-- Group 0x0, selected by the low byte; bits 11..8 are not examined (R76, R77). -/
def decodeGroup0 (f : Fields) : Except DecodeError Instr :=
  match f.NN with
  | 0xE0#8 => .ok .cls
  | 0xEE#8 => .ok .ret
  | _ => .error (.invalidOpcode f.full)

/-- Group 0x8, selected by the low nibble (R76). -/
def decodeGroup8 (f : Fields) : Except DecodeError Instr :=
  match f.N.val with
  | 0x0 => .ok (.ldReg f.X f.Y)
  | 0x1 => .ok (.orReg f.X f.Y)
  | 0x2 => .ok (.andReg f.X f.Y)
  | 0x3 => .ok (.xorReg f.X f.Y)
  | 0x4 => .ok (.addReg f.X f.Y)
  | 0x5 => .ok (.sub f.X f.Y)
  | 0x6 => .ok (.shr f.X f.Y)
  | 0x7 => .ok (.subn f.X f.Y)
  | 0xE => .ok (.shl f.X f.Y)
  | _ => .error (.invalidOpcode f.full)

/-- Group 0xE, selected by the low byte (R76). -/
def decodeGroupE (f : Fields) : Except DecodeError Instr :=
  match f.NN with
  | 0x9E#8 => .ok (.skp f.X)
  | 0xA1#8 => .ok (.sknp f.X)
  | _ => .error (.invalidOpcode f.full)

/-- Group 0xF, selected by the low byte (R76). -/
def decodeGroupF (f : Fields) : Except DecodeError Instr :=
  match f.NN with
  | 0x07#8 => .ok (.ldFromDT f.X)
  | 0x0A#8 => .ok (.ldKey f.X)
  | 0x15#8 => .ok (.ldDT f.X)
  | 0x18#8 => .ok (.ldST f.X)
  | 0x1E#8 => .ok (.addI f.X)
  | 0x29#8 => .ok (.ldF f.X)
  | 0x33#8 => .ok (.ldB f.X)
  | 0x55#8 => .ok (.storeRegs f.X)
  | 0x65#8 => .ok (.loadRegs f.X)
  | _ => .error (.invalidOpcode f.full)

/-- "Dispatch on the top 4 bits, then (for opcodes 0x0, 0x8, 0xE, 0xF) on the low byte or low nibble" (R76). Groups 0x5 and 0x9
do not examine the low nibble (R77); the one value left, group 0xB, is no instruction (R79). -/
def decodeWord (w : Word) : Except DecodeError Instr :=
  let f := fields w
  match f.T.val with
  | 0x0 => decodeGroup0 f
  | 0x1 => .ok (.jp f.NNN)
  | 0x2 => .ok (.call f.NNN)
  | 0x3 => .ok (.seImm f.X f.NN)
  | 0x4 => .ok (.sneImm f.X f.NN)
  | 0x5 => .ok (.seReg f.X f.Y)
  | 0x6 => .ok (.ldImm f.X f.NN)
  | 0x7 => .ok (.addImm f.X f.NN)
  | 0x8 => decodeGroup8 f
  | 0x9 => .ok (.sneReg f.X f.Y)
  | 0xA => .ok (.ldI f.NNN)
  | 0xC => .ok (.rnd f.X f.NN)
  | 0xD => .ok (.drw f.X f.Y f.N.val)
  | 0xE => decodeGroupE f
  | 0xF => decodeGroupF f
  | _ => .error (.invalidOpcode f.full)

/-- Two bytes make a word big-endian: the first byte is `w[15:8]` (R54, R71). -/
def joinBytes (hi lo : Byte) : Word := BitVec.ofNat 16 (hi.toNat * 256 + lo.toNat)

/-- `w[15:8]`, the byte at the lower address (R54). -/
def highByte (w : Word) : Byte := w.extractLsb' 8 8

/-- `w[7:0]`, the byte at the higher address (R54). -/
def lowByte (w : Word) : Byte := w.extractLsb' 0 8

/-- Decode the first instruction of a byte sequence and give the bytes after it (R70, R71). -/
def decodeBytes : List Byte → Except DecodeError (Instr × List Byte)
  | hi :: lo :: rest =>
    match decodeWord (joinBytes hi lo) with
    | .ok i => .ok (i, rest)
    | .error e => .error e
  | _ => .error .truncated

/-- The two bytes of an instruction in memory order, from its bits as spec/opcode_table.json numbers them: one 16-bit word, bit 0
the least significant, bits from `nbits` upward zero. -/
def tableBytes (nbits w : Nat) : List Byte :=
  [highByte (BitVec.ofNat 16 (w % 2 ^ nbits)), lowByte (BitVec.ofNat 16 (w % 2 ^ nbits))]

/-- What the decoder reads from an instruction's bits as the opcode table numbers them. -/
def decodeTableWord (nbits w : Nat) : Option Instr :=
  match decodeBytes (tableBytes nbits w) with
  | .ok (i, _) => some i
  | .error _ => none

/-- A word from its four nibbles: `w = T*4096 + X*256 + Y*16 + N` (R73). -/
def packNibbles (t x y n : Fin 16) : Word :=
  BitVec.ofNat 16 (t.val * 4096 + x.val * 256 + y.val * 16 + n.val)

/-- A word from selector, register and byte: `w = T*4096 + X*256 + NN` (R73). -/
def packByte (t x : Fin 16) (nn : Byte) : Word :=
  BitVec.ofNat 16 (t.val * 4096 + x.val * 256 + nn.toNat)

/-- A word from selector and address: `w = T*4096 + NNN` (R73). -/
def packAddr (t : Fin 16) (nnn : BitVec 12) : Word :=
  BitVec.ofNat 16 (t.val * 4096 + nnn.toNat)

/-- The canonical word of an instruction, 0 in every ignored bit (R76, R77, R81). A row count above 15 is no instruction
(`Instr.wellFormed`); of it the low nibble is encoded (log entry 27). -/
def encode : Instr → Word
  | .cls => packByte 0x0 0 0xE0
  | .ret => packByte 0x0 0 0xEE
  | .jp nnn => packAddr 0x1 nnn
  | .call nnn => packAddr 0x2 nnn
  | .seImm x nn => packByte 0x3 x nn
  | .sneImm x nn => packByte 0x4 x nn
  | .seReg x y => packNibbles 0x5 x y 0x0
  | .ldImm x nn => packByte 0x6 x nn
  | .addImm x nn => packByte 0x7 x nn
  | .ldReg x y => packNibbles 0x8 x y 0x0
  | .orReg x y => packNibbles 0x8 x y 0x1
  | .andReg x y => packNibbles 0x8 x y 0x2
  | .xorReg x y => packNibbles 0x8 x y 0x3
  | .addReg x y => packNibbles 0x8 x y 0x4
  | .sub x y => packNibbles 0x8 x y 0x5
  | .shr x y => packNibbles 0x8 x y 0x6
  | .subn x y => packNibbles 0x8 x y 0x7
  | .shl x y => packNibbles 0x8 x y 0xE
  | .sneReg x y => packNibbles 0x9 x y 0x0
  | .ldI nnn => packAddr 0xA nnn
  | .rnd x nn => packByte 0xC x nn
  | .drw x y n => packNibbles 0xD x y (Fin.ofNat 16 n)
  | .skp x => packByte 0xE x 0x9E
  | .sknp x => packByte 0xE x 0xA1
  | .ldFromDT x => packByte 0xF x 0x07
  | .ldKey x => packByte 0xF x 0x0A
  | .ldDT x => packByte 0xF x 0x15
  | .ldST x => packByte 0xF x 0x18
  | .addI x => packByte 0xF x 0x1E
  | .ldF x => packByte 0xF x 0x29
  | .ldB x => packByte 0xF x 0x33
  | .storeRegs x => packByte 0xF x 0x55
  | .loadRegs x => packByte 0xF x 0x65

/-- One row of the opcode map: a word `w` selects it when `w & mask = bits` (R76; `bits` is the column "match"). -/
structure OpcodeRow where
  mask : Word
  bits : Word
  deriving DecidableEq, Repr

/-- The word selects the row (R76). -/
def OpcodeRow.selects (r : OpcodeRow) (w : Word) : Bool := w &&& r.mask == r.bits

/-- The columns mask and match of R76 for each instruction, transcribed from the table and not from the decoder above. -/
def Instr.row : Instr → OpcodeRow
  | .cls => ⟨0xF0FF, 0x00E0⟩
  | .ret => ⟨0xF0FF, 0x00EE⟩
  | .jp _ => ⟨0xF000, 0x1000⟩
  | .call _ => ⟨0xF000, 0x2000⟩
  | .seImm _ _ => ⟨0xF000, 0x3000⟩
  | .sneImm _ _ => ⟨0xF000, 0x4000⟩
  | .seReg _ _ => ⟨0xF000, 0x5000⟩
  | .ldImm _ _ => ⟨0xF000, 0x6000⟩
  | .addImm _ _ => ⟨0xF000, 0x7000⟩
  | .ldReg _ _ => ⟨0xF00F, 0x8000⟩
  | .orReg _ _ => ⟨0xF00F, 0x8001⟩
  | .andReg _ _ => ⟨0xF00F, 0x8002⟩
  | .xorReg _ _ => ⟨0xF00F, 0x8003⟩
  | .addReg _ _ => ⟨0xF00F, 0x8004⟩
  | .sub _ _ => ⟨0xF00F, 0x8005⟩
  | .shr _ _ => ⟨0xF00F, 0x8006⟩
  | .subn _ _ => ⟨0xF00F, 0x8007⟩
  | .shl _ _ => ⟨0xF00F, 0x800E⟩
  | .sneReg _ _ => ⟨0xF000, 0x9000⟩
  | .ldI _ => ⟨0xF000, 0xA000⟩
  | .rnd _ _ => ⟨0xF000, 0xC000⟩
  | .drw _ _ _ => ⟨0xF000, 0xD000⟩
  | .skp _ => ⟨0xF0FF, 0xE09E⟩
  | .sknp _ => ⟨0xF0FF, 0xE0A1⟩
  | .ldFromDT _ => ⟨0xF0FF, 0xF007⟩
  | .ldKey _ => ⟨0xF0FF, 0xF00A⟩
  | .ldDT _ => ⟨0xF0FF, 0xF015⟩
  | .ldST _ => ⟨0xF0FF, 0xF018⟩
  | .addI _ => ⟨0xF0FF, 0xF01E⟩
  | .ldF _ => ⟨0xF0FF, 0xF029⟩
  | .ldB _ => ⟨0xF0FF, 0xF033⟩
  | .storeRegs _ => ⟨0xF0FF, 0xF055⟩
  | .loadRegs _ => ⟨0xF0FF, 0xF065⟩

/-- One instruction of each form, in the order of R76. -/
def instrForms : List Instr :=
  List.flatten [
    [.cls, .ret, .jp 0, .call 0, .seImm 0 0, .sneImm 0 0, .seReg 0 0, .ldImm 0 0, .addImm 0 0],
    [.ldReg 0 0, .orReg 0 0, .andReg 0 0, .xorReg 0 0, .addReg 0 0, .sub 0 0, .shr 0 0, .subn 0 0, .shl 0 0],
    [.sneReg 0 0, .ldI 0, .rnd 0 0, .drw 0 0 0, .skp 0, .sknp 0],
    [.ldFromDT 0, .ldKey 0, .ldDT 0, .ldST 0, .addI 0, .ldF 0, .ldB 0, .storeRegs 0, .loadRegs 0]]

/-- The opcode map of R76: 33 rows. -/
def opcodeTable : List OpcodeRow := instrForms.map Instr.row

/-- The spelling of a register, `V0` to `VF` (R81). -/
def regText (x : RegIdx) : String := "V" ++ String.singleton (Nat.digitChar x.val).toUpper

/-- A literal in decimal (R81 allows `0x..` or decimal). -/
def numText (n : Nat) : String := toString n

/-- The assembler spelling of an instruction in the mnemonics of R81. Notation only. -/
def Instr.asm : Instr → String
  | .cls => "CLS"
  | .ret => "RET"
  | .jp nnn => "JP " ++ numText nnn.toNat
  | .call nnn => "CALL " ++ numText nnn.toNat
  | .seImm x nn => "SE " ++ regText x ++ ", " ++ numText nn.toNat
  | .sneImm x nn => "SNE " ++ regText x ++ ", " ++ numText nn.toNat
  | .seReg x y => "SE " ++ regText x ++ ", " ++ regText y
  | .ldImm x nn => "LD " ++ regText x ++ ", " ++ numText nn.toNat
  | .addImm x nn => "ADD " ++ regText x ++ ", " ++ numText nn.toNat
  | .ldReg x y => "LD " ++ regText x ++ ", " ++ regText y
  | .orReg x y => "OR " ++ regText x ++ ", " ++ regText y
  | .andReg x y => "AND " ++ regText x ++ ", " ++ regText y
  | .xorReg x y => "XOR " ++ regText x ++ ", " ++ regText y
  | .addReg x y => "ADD " ++ regText x ++ ", " ++ regText y
  | .sub x y => "SUB " ++ regText x ++ ", " ++ regText y
  | .shr x y => "SHR " ++ regText x ++ ", " ++ regText y
  | .subn x y => "SUBN " ++ regText x ++ ", " ++ regText y
  | .shl x y => "SHL " ++ regText x ++ ", " ++ regText y
  | .sneReg x y => "SNE " ++ regText x ++ ", " ++ regText y
  | .ldI nnn => "LD I, " ++ numText nnn.toNat
  | .rnd x nn => "RND " ++ regText x ++ ", " ++ numText nn.toNat
  | .drw x y n => "DRW " ++ regText x ++ ", " ++ regText y ++ ", " ++ numText n
  | .skp x => "SKP " ++ regText x
  | .sknp x => "SKNP " ++ regText x
  | .ldFromDT x => "LD " ++ regText x ++ ", DT"
  | .ldKey x => "LD " ++ regText x ++ ", K"
  | .ldDT x => "LD DT, " ++ regText x
  | .ldST x => "LD ST, " ++ regText x
  | .addI x => "ADD I, " ++ regText x
  | .ldF x => "LD F, " ++ regText x
  | .ldB x => "LD B, " ++ regText x
  | .storeRegs x => "LD [I], " ++ regText x
  | .loadRegs x => "LD " ++ regText x ++ ", [I]"

end Sys2Proof
end

