-- ==== Sys2Proof/Machine/Block.lean ====
section
/-! DEFINITION. The block (spec/00_scope.md R1): sprite rasterizer, framebuffer update controller, timer decrement logic, as one
piece of state with one operation per command of its core-side ports (R9) and of its host-side ports (R10). It raises no error
(43_sprite_framebuffer.md R169) and knows nothing of the core but the operands of its commands (R37). -/

namespace Sys2Proof.Machine

/-- The pixel grid: row `y` as 64 bits, bit `x` of it the pixel `(x, y)` (R29). DESIGN CHOICE: the layout is unobservable
(D28, log entry 18). -/
abbrev Framebuffer := Vector (BitVec 64) 32

/-- The blank grid. -/
def Framebuffer.blank : Framebuffer := Vector.replicate 32 0

/-- `FB[x][y]` (R15, R29). -/
def Framebuffer.pixel (fb : Framebuffer) (px : PixX) (py : PixY) : Bool := fb[py].getLsbD px.val

/-- Invert one pixel; no other pixel is touched (R158). -/
def Framebuffer.flip (fb : Framebuffer) (px : PixX) (py : PixY) : Framebuffer :=
  fb.set py.val (fb[py] ^^^ BitVec.twoPow 64 px.val)

/-- `FB[px][py] <- FB[px][py] ^ bit` (R158). -/
def Framebuffer.xorPixel (fb : Framebuffer) (px : PixX) (py : PixY) (bit : Bool) : Framebuffer :=
  if bit then fb.flip px py else fb

/-- The block's state, all of it (R4, R37): pixel grid (R29), changed flag (R30), delay and sound timer (R25, R26). -/
structure Block where
  FB : Framebuffer
  CHG : Bool
  DT : Byte
  ST : Byte
  deriving DecidableEq, Repr

/-- Host port `RESET`: the part of initialization that writes the block (R10, R261). -/
def Block.reset (chg : Bool) : Block := { FB := Framebuffer.blank, CHG := chg, DT := 0, ST := 0 }

/-- Command `CLEAR`: all pixels 0, changed flag set, whatever was there (R151). -/
def Block.clear (b : Block) : Block := { b with FB := Framebuffer.blank, CHG := true }

/-- The sprite bit of column `c` of a row byte: bit `7 - c`, most significant bit first (R156). -/
def spriteBit (row : Byte) (c : Nat) : Bool := row.getLsbD (7 - c)

/-- `px = (x0 + c) mod 64`, the sum over the integers (R157). -/
def wrapX (x0 : Byte) (c : Nat) : PixX := Fin.ofNat 64 (x0.toNat + c)

/-- `py = (y0 + r) mod 32`, the sum over the integers (R157). -/
def wrapY (y0 : Byte) (r : Nat) : PixY := Fin.ofNat 32 (y0.toNat + r)

/-- What a sprite draw changes while it runs: the grid, the changed flag, and whether a pixel went from set to unset so far. -/
structure Drawing where
  fb : Framebuffer
  chg : Bool
  collision : Bool
  deriving DecidableEq, Repr

/-- One pixel of a sprite: XOR (R158), changed flag if it differs from before (R159), collision if it went from set to unset, never
taken back (R160; the accumulation is the spec's decision D7, log entry 17). -/
def Drawing.pixel (x0 y0 : Byte) (r c : Nat) (row : Byte) (d : Drawing) : Drawing :=
  let bit := spriteBit row c
  let old := d.fb.pixel (wrapX x0 c) (wrapY y0 r)
  { fb := d.fb.xorPixel (wrapX x0 c) (wrapY y0 r) bit
    chg := d.chg || bit
    collision := d.collision || (bit && old) }

/-- The eight columns of row `r`, in ascending order (R152, R165). -/
def Drawing.row (x0 y0 : Byte) (r : Nat) (row : Byte) (d : Drawing) : Drawing :=
  (List.range 8).foldl (fun d c => Drawing.pixel x0 y0 r c row d) d

/-- The rows from row `r` on (R152). -/
def Drawing.rows (x0 y0 : Byte) : Nat → List Byte → Drawing → Drawing
  | _, [], d => d
  | r, row :: rest, d => Drawing.rows x0 y0 (r + 1) rest (Drawing.row x0 y0 r row d)

/-- Command `DRAW(x0, y0, n, row[0..n-1])` returning `collision` (R9, R152, R169); `n` is the number of rows given. -/
def Block.draw (x0 y0 : Byte) (rows : List Byte) (b : Block) : Block × Bool :=
  let d := Drawing.rows x0 y0 0 rows { fb := b.FB, chg := b.CHG, collision := false }
  ({ b with FB := d.fb, CHG := d.chg }, d.collision)

/-- Command `DT_READ` (R9, R200). -/
def Block.dtRead (b : Block) : Byte := b.DT

/-- Command `DT_WRITE` (R9, R201). -/
def Block.dtWrite (b : Block) (v : Byte) : Block := { b with DT := v }

/-- Command `ST_WRITE` (R9, R202). -/
def Block.stWrite (b : Block) (v : Byte) : Block := { b with ST := v }

/-- One timer's decrement: one lower, and 0 stays 0 (R203). -/
def countDown (t : Byte) : Byte := if t = 0 then 0 else t - 1

/-- Command `TICK`: both timers count down, nothing else changes (R203). -/
def Block.tick (b : Block) : Block := { b with DT := countDown b.DT, ST := countDown b.ST }

/-- Host port `PIXEL_AT` on in-bounds coordinates (R10, R175). -/
def Block.pixelAt (b : Block) (px : PixX) (py : PixY) : Bool := b.FB.pixel px py

/-- Host port `CHG_READ` (R176). -/
def Block.chgRead (b : Block) : Bool := b.CHG

/-- Host port `CHG_CLEAR` (R177). -/
def Block.chgClear (b : Block) : Block := { b with CHG := false }

/-- Host port `DT_READ_HOST`, an observation tap (R208). -/
def Block.dtReadHost (b : Block) : Byte := b.DT

/-- Host port `ST_READ`, an observation tap (R208). -/
def Block.stRead (b : Block) : Byte := b.ST

end Sys2Proof.Machine
end

