-- ==== Sys2Proof/Machine/Memory.lean ====
section
/-! DEFINITION. Memory: 4096 bytes (20_memory.md R50), held as the cells that differ from their reset contents, in one canonical
form. Byte accesses only (R57); the bound of R53 is checked by the operations of Machine/Ops.lean before they come here. -/

namespace Sys2Proof.Machine

/-- Memory as its cells that do not hold their reset contents, addresses rising. -/
abbrev Memory := List Host.Cell

/-- The canonical form: addresses strictly rising, all inside the address space (R50), no cell equal to what an unlisted address
reads as. -/
abbrev Memory.wf (m : Memory) : Prop :=
  List.Pairwise (fun c d : Host.Cell => c.1 < d.1) m ∧ ∀ c ∈ m, c.1 < 4096 ∧ c.2 ≠ initialByte c.1

/-- The byte at an address: "the last byte written there (or its reset value)" (R58). -/
def Memory.read : Memory → Nat → Byte
  | [], a => initialByte a
  | c :: m, a => if c.1 = a then c.2 else Memory.read m a

/-- Take the cell of an address out of the list, so that the address reads as its reset contents. -/
def Memory.erase (m : Memory) (a : Nat) : Memory := m.filter (fun c => c.1 != a)

/-- Put a cell at its place in the rising order. -/
def Memory.insert : Memory → Host.Cell → Memory
  | [], c => [c]
  | d :: m, c => if c.1 < d.1 then c :: d :: m else d :: Memory.insert m c

/-- Store a byte (R15, R58), keeping the canonical form: storing the reset contents removes the cell. -/
def Memory.write (m : Memory) (a : Nat) (v : Byte) : Memory :=
  if v = initialByte a then m.erase a else (m.erase a).insert (a, v)

/-- The `n` bytes from address `a` upward (R55, R57). -/
def Memory.readBlock (m : Memory) (a n : Nat) : List Byte := (List.range n).map (fun k => m.read (a + k))

/-- Store bytes at ascending addresses from `a` (R55, R57). -/
def Memory.writeBlock : Memory → Nat → List Byte → Memory
  | m, _, [] => m
  | m, a, b :: bs => Memory.writeBlock (m.write a b) (a + 1) bs

end Sys2Proof.Machine
end

