-- ==== Sys2Proof/Machine/State.lean ====
section
/-! DEFINITION. The machine's state, all of it, as plain data (10_state.md), the reasons a Step stops, and the state after reset. -/

namespace Sys2Proof.Machine

/-- The errors of 60_exceptions.md R230. Each ends the operation that raised it and is returned to that operation's caller, who
still holds the state from before (R236, R238): a fault is SAFE, nothing after it can be claimed. -/
inductive Fault where
  /-- Raised by a Step at decode: the word matches no row of R76 (R231). Safe. -/
  | invalidOpcode (w : Word)
  /-- Raised by program load, never by a Step: the offered length exceeds 3584 bytes (R232, R263). Safe. -/
  | loadError (len : Nat)
  /-- Raised by CALL with 16 entries in use (R233). Safe. -/
  | stackOverflow
  /-- Raised by RET with no entry in use (R234). Safe. -/
  | stackUnderflow
  /-- Raised by fetch, DRW, LD B,Vx, LD [I],Vx, LD Vx,[I] with the lowest offending address (at least 4096), and by SKP and SKNP with
  the offending key index (16 to 255) (R235). Safe. -/
  | outOfRangeAccess (a : Nat)
  deriving DecidableEq, Repr

/-- Why the model gives no meaning. -/
inductive Refusal where
  /-- An instruction without a meaning. No instruction of this model is refused so. Safe. -/
  | notModelled (mnemonic : String)
  /-- The host pressed or released a key above 15, "a caller contract violation" (R194, R241). Raised by `hostStep`. Safe. -/
  | keyOutOfContract (k : Nat)
  /-- The host asked for a pixel outside the grid (R175, R241). Raised by `pixelAt`. Safe. -/
  | pixelOutOfContract (x y : Nat)
  /-- The driver loaded, stepped or used a port before any initialization (R266). Raised by `driver`. Safe. -/
  | notInitialized
  deriving DecidableEq, Repr

/-- The whole state (R20 to R31, R35, R37). -/
structure State where
  /-- `V0` to `VF` (R20); `V[15]` is VF (R21). -/
  V : Vector Byte 16
  /-- The index register (R24). -/
  I : Word
  /-- The program counter (R22). -/
  pc : Word
  /-- The 16 call-stack entries (R27). -/
  stack : Vector Word 16
  /-- The number of call-stack entries in use, 0 to 16 (R27, C3). -/
  sp : Fin 17
  /-- The key flags, `true` means pressed (R28). -/
  keyState : Vector Bool 16
  /-- The keypad snapshot `key[0..15]`, held only during a Step (R35, R195; log entry 11). -/
  key : Option (Vector Bool 16)
  /-- Memory (R31), as its cells that differ from their reset contents. -/
  mem : Memory
  /-- The block's state (R37): FB, CHG, DT, ST. -/
  block : Block
  /-- The MODEL's own field: how many values the random source has given (log entry 1). -/
  draws : Nat
  deriving DecidableEq, Repr

/-- The state that initialization leaves (R261), for a value of `CHG_AT_RESET`; the draw counter at 0 (DESIGN CHOICE, log entry 1). -/
def State.resetWith (chg : Bool) : State :=
  { V := Vector.replicate 16 0
    I := 0
    pc := 0x200
    stack := Vector.replicate 16 0
    sp := 0
    keyState := Vector.replicate 16 false
    key := none
    mem := []
    block := Block.reset chg
    draws := 0 }

/-- The machine right after reset. No program is in memory: the first Step raises InvalidOpcode(0x0000) (R261). -/
def State.reset : State := State.resetWith chgAtReset

end Sys2Proof.Machine
end

