-- ==== Sys2Proof/Machine/Ops.lean ====
section
/-! DEFINITION. The named operations over the state that the meanings share: registers, program counter, call stack, memory ranges,
keypad, random source, raising an error, and the phases of a Step around the execute phase (40_control_flow.md R100). -/

namespace Sys2Proof.Machine

/-- "raise Error(info)": the operation ends with the error and nothing is changed (R15, R236, R238). This is the machine's one way
of taking an exception: it has no handler, no vector, no saved register and no return from one (R237). -/
def raise (f : Fault) : Host.Outcome State Fault Refusal := .fault f

/-- The code of an error (R230). -/
def Fault.code : Fault → Nat
  | .invalidOpcode _ => 1
  | .loadError _ => 2
  | .stackOverflow => 3
  | .stackUnderflow => 4
  | .outOfRangeAccess _ => 5

/-- Read `x[i]` (R15, R20). -/
def State.reg (s : State) (x : RegIdx) : Byte := s.V[x]

/-- Write `x[i]` (R15, R20). -/
def State.setReg (s : State) (x : RegIdx) (v : Byte) : State := { s with V := s.V.set x.val v }

/-- Register 15, VF (R21). -/
def VF : RegIdx := 15

/-- Write `pc` (R15, R22). -/
def State.setPc (s : State) (a : Word) : State := { s with pc := a }

/-- "Default behavior: advance program counter by 2" (R101). -/
def State.advance (s : State) : State := s.setPc (s.pc + 2)

/-- "advance by 4 instead of 2 when the condition holds, else by 2" (R102). -/
def State.skipIf (s : State) (c : Bool) : State := s.setPc (if c then s.pc + 4 else s.pc + 2)

/-- Write `I` (R24). -/
def State.setI (s : State) (a : Word) : State := { s with I := a }

/-- Replace memory. -/
def State.setMem (s : State) (m : Memory) : State := { s with mem := m }

/-- Replace the block's state by what a command left. -/
def State.setBlock (s : State) (b : Block) : State := { s with block := b }

/-- Push: write `stack[sp]`, then increment `sp`; `none` when all 16 entries are in use (R27, R105). -/
def State.push (s : State) (a : Word) : Option State :=
  if h : s.sp.val < 16 then
    some { s with stack := s.stack.set s.sp.val a h, sp := ⟨s.sp.val + 1, by omega⟩ }
  else none

/-- Pop: decrement `sp`, then read `stack[sp]`; `none` when no entry is in use. The entry keeps its value (R27, R103). -/
def State.pop (s : State) : Option (Word × State) :=
  if h : s.sp.val = 0 then none
  else some (s.stack[s.sp.val - 1]'(by omega), { s with sp := ⟨s.sp.val - 1, by omega⟩ })

/-- The lowest address above 4095 among `first .. first + count - 1`, if there is one. Addresses are computed over the integers and
never wrapped (R53, R235). -/
def offending (first count : Nat) : Option Nat :=
  if count = 0 ∨ first + count ≤ 4096 then none else some (max first 4096)

/-- Go on only when the `count` bytes from `first` exist, else raise OutOfRangeAccess, before anything is written (R53). -/
def withRange (first count : Nat) (go : Host.Outcome State Fault Refusal) : Host.Outcome State Fault Refusal :=
  match offending first count with
  | none => go
  | some a => raise (.outOfRangeAccess a)

/-- `key[k]`: the snapshot of the Step that is running; between Steps, where there is none, the key flags themselves, which give
the same value (R195; log entry 11). -/
def State.keyAt (s : State) (k : KeyIdx) : Bool :=
  match s.key with
  | some snap => snap[k]
  | none => s.keyState[k]

/-- "key[k] = 1 for some k in 0..15" (R192). -/
def State.anyKey (s : State) : Bool := (List.finRange 16).any (fun k => s.keyAt k)

/-- Go on with `key[k]` when `k` is a key number, else raise OutOfRangeAccess(k): the whole byte is the index (R190, R193). -/
def withKey (k : Byte) (s : State) (go : Bool → Host.Outcome State Fault Refusal) : Host.Outcome State Fault Refusal :=
  if h : k.toNat < 16 then go (s.keyAt ⟨k.toNat, h⟩) else raise (.outOfRangeAccess k.toNat)

/-- The value of the random source's next draw, 0 to 254 (R142; log entry 1). -/
def State.draw (s : State) : Byte := BitVec.ofNat 8 (Config.rng s.draws).val

/-- The draw is used up: the next RND takes a fresh value (R142). -/
def State.drawn (s : State) : State := { s with draws := s.draws + 1 }

/-- Load the registers `0 .. n-1` from ascending addresses (R219). -/
def loadBlock (m : Memory) (base : Nat) : Nat → Vector Byte 16 → Vector Byte 16
  | 0, v => v
  | n + 1, v => (loadBlock m base n v).setIfInBounds n (m.read (base + n))

/-- Replace the register file by what a block load left. -/
def State.setRegs (s : State) (v : Vector Byte 16) : State := { s with V := v }

/-- "key[0..15] <- keyState[0..15]": the first act of a Step (R100, R195). -/
def State.beginStep (s : State) : State := { s with key := some s.keyState }

/-- Fetch the word at `pc`, big-endian, or the error of a `pc` above 4094 (R54, R100). -/
def State.fetch (s : State) : Except Fault Word :=
  match offending s.pc.toNat 2 with
  | none => .ok (joinBytes (s.mem.read s.pc.toNat) (s.mem.read (s.pc.toNat + 1)))
  | some a => .error (.outOfRangeAccess a)

/-- "tick()", the last act of a Step that raised no error (R100, R203, R205); the snapshot ends with the Step (R35). -/
def State.endStep (s : State) : State := { s with block := s.block.tick, key := none }

/-- Put an instruction's two bytes where the next fetch reads them. At a `pc` from which nothing can be fetched (above 4094) `pc` is
first set to the reset entry point (log entry 23). -/
def State.placeWord (s : State) (nbits w : Nat) : State :=
  let t := if s.pc.toNat ≤ 4094 then s else s.setPc 0x200
  t.setMem (t.mem.writeBlock t.pc.toNat (tableBytes nbits w))

end Sys2Proof.Machine
end

