-- ==== Sys2Proof/Machine/Operands.lean ====
section
/-! DEFINITION. The operand forms (30_encoding.md R74): register, 8-bit immediate, 12-bit address, row count, and memory through
`I` (46_index_memory.md R220). Registers are read by `State.reg`. -/

namespace Sys2Proof.Machine

/-- The address operand: "zero-extended to 16 bits when written to `pc` or `I`" (R74). -/
def addrOperand (nnn : BitVec 12) : Word := nnn.setWidth 16

/-- The immediate operand, "used at register width" (R74). -/
def immOperand (nn : Byte) : Byte := nn

/-- The effective address of offset `i`: `I + i` over the integers (R220, R53). -/
def State.indexAddr (s : State) (i : Nat) : Nat := s.I.toNat + i

/-- The sprite rows of DRW: row `r` is the byte at `I + r`, `r` = 0..n-1 (R155). -/
def State.spriteRows (s : State) (n : Nat) : List Byte := s.mem.readBlock (s.indexAddr 0) n

/-- The registers V0 to Vx, in order (R218). -/
def State.regsUpTo (s : State) (x : RegIdx) : List Byte := s.V.toList.take (x.val + 1)

/-- The three decimal digits of a byte, hundreds first (R217). -/
def bcdDigits (v : Byte) : List Byte :=
  [BitVec.ofNat 8 (v.toNat / 100), BitVec.ofNat 8 (v.toNat / 10 % 10), BitVec.ofNat 8 (v.toNat % 10)]

/-- The address of a value's glyph: the whole byte times five, not masked (R216; D17, log entry 19). -/
def glyphAddr (v : Byte) : Word := BitVec.ofNat 16 (v.toNat * 5)

end Sys2Proof.Machine
end

