-- ==== Sys2Proof/Machine/Alu.lean ====
section
/-! DEFINITION. The meanings of register load, arithmetic and logic (41_alu.md). Every one advances `pc` by 2 and raises nothing. -/

namespace Sys2Proof.Machine

/-- Write the result to `x[X]`, then the flag to VF, then advance: with X = 15 the flag stands (R132; D10, log entry 14). Both are
computed from the registers as they were before. -/
def State.writeWithFlag (s : State) (x : RegIdx) (result flag : Byte) : State :=
  ((s.setReg x result).setReg VF flag).advance

/-- LD Vx,nn (R120). -/
def execLdImm (x : RegIdx) (nn : Byte) (s : State) : Host.Outcome State Fault Refusal :=
  .next (s.setReg x (immOperand nn)).advance

/-- ADD Vx,nn (R121): no flag. -/
def execAddImm (x : RegIdx) (nn : Byte) (s : State) : Host.Outcome State Fault Refusal :=
  .next (s.setReg x (sum8 (s.reg x) (immOperand nn))).advance

/-- LD Vx,Vy (R122). -/
def execLdReg (x y : RegIdx) (s : State) : Host.Outcome State Fault Refusal :=
  .next (s.setReg x (s.reg y)).advance

/-- OR Vx,Vy (R123): VF is reset to 0. -/
def execOr (x y : RegIdx) (s : State) : Host.Outcome State Fault Refusal :=
  .next (s.writeWithFlag x (s.reg x ||| s.reg y) 0)

/-- AND Vx,Vy (R124): VF is reset to 0. -/
def execAnd (x y : RegIdx) (s : State) : Host.Outcome State Fault Refusal :=
  .next (s.writeWithFlag x (s.reg x &&& s.reg y) 0)

/-- XOR Vx,Vy (R125): VF is reset to 0. -/
def execXor (x y : RegIdx) (s : State) : Host.Outcome State Fault Refusal :=
  .next (s.writeWithFlag x (s.reg x ^^^ s.reg y) 0)

/-- ADD Vx,Vy (R126). -/
def execAddReg (x y : RegIdx) (s : State) : Host.Outcome State Fault Refusal :=
  .next (s.writeWithFlag x (sum8 (s.reg x) (s.reg y)) (carryFlag (s.reg x) (s.reg y)))

/-- SUB Vx,Vy (R127): `Vx - Vy`. -/
def execSub (x y : RegIdx) (s : State) : Host.Outcome State Fault Refusal :=
  .next (s.writeWithFlag x (diff8 (s.reg x) (s.reg y)) (notBorrowFlag (s.reg x) (s.reg y)))

/-- SHR Vx,Vy (R128): the source is `Vy`. -/
def execShr (x y : RegIdx) (s : State) : Host.Outcome State Fault Refusal :=
  .next (s.writeWithFlag x (shiftRight8 (s.reg y)) (shrFlag (s.reg y)))

/-- SUBN Vx,Vy (R129): `Vy - Vx`. -/
def execSubn (x y : RegIdx) (s : State) : Host.Outcome State Fault Refusal :=
  .next (s.writeWithFlag x (diff8 (s.reg y) (s.reg x)) (notBorrowFlag (s.reg y) (s.reg x)))

/-- SHL Vx,Vy (R130): the source is `Vy`. -/
def execShl (x y : RegIdx) (s : State) : Host.Outcome State Fault Refusal :=
  .next (s.writeWithFlag x (shiftLeft8 (s.reg y)) (shlFlag (s.reg y)))

end Sys2Proof.Machine
end

