-- ==== Sys2Proof/Machine/Control.lean ====
section
/-! DEFINITION. The meanings of the control transfers (40_control_flow.md). Execute phase only: the fetch before and the tick after
belong to the Step (R16, R100). -/

namespace Sys2Proof.Machine

/-- RET (R103): the entry popped is the call's own address, so 2 is added. -/
def execRet (s : State) : Host.Outcome State Fault Refusal :=
  match s.pop with
  | none => raise .stackUnderflow
  | some (a, t) => .next (t.setPc (a + 2))

/-- JP nnn (R104). -/
def execJp (nnn : BitVec 12) (s : State) : Host.Outcome State Fault Refusal :=
  .next (s.setPc (addrOperand nnn))

/-- CALL nnn (R105): pushes "the *current* program counter (not yet advanced)". -/
def execCall (nnn : BitVec 12) (s : State) : Host.Outcome State Fault Refusal :=
  match s.push s.pc with
  | none => raise .stackOverflow
  | some t => .next (t.setPc (addrOperand nnn))

/-- SE Vx,nn (R106). -/
def execSeImm (x : RegIdx) (nn : Byte) (s : State) : Host.Outcome State Fault Refusal :=
  .next (s.skipIf (s.reg x == immOperand nn))

/-- SNE Vx,nn (R107). -/
def execSneImm (x : RegIdx) (nn : Byte) (s : State) : Host.Outcome State Fault Refusal :=
  .next (s.skipIf (s.reg x != immOperand nn))

/-- SE Vx,Vy (R108). -/
def execSeReg (x y : RegIdx) (s : State) : Host.Outcome State Fault Refusal :=
  .next (s.skipIf (s.reg x == s.reg y))

/-- SNE Vx,Vy (R109). -/
def execSneReg (x y : RegIdx) (s : State) : Host.Outcome State Fault Refusal :=
  .next (s.skipIf (s.reg x != s.reg y))

end Sys2Proof.Machine
end

