-- ==== Sys2Proof/Machine/Display.lean ====
section
/-! DEFINITION. The meanings of CLS and DRW (43_sprite_framebuffer.md): the core's part, which issues the block's commands CLEAR and
DRAW (R169). -/

namespace Sys2Proof.Machine

/-- CLS (R151). -/
def execCls (s : State) : Host.Outcome State Fault Refusal :=
  .next (s.setBlock s.block.clear).advance

/-- DRW Vx,Vy,n (R152): the coordinates and the rows are read before VF is written (R153; D8, log entry 16), all row addresses are
checked first (R155), and VF becomes 1 on a collision, else 0 (R154, R160, R169). -/
def execDrw (x y : RegIdx) (n : Nat) (s : State) : Host.Outcome State Fault Refusal :=
  withRange (s.indexAddr 0) n <|
    .next (((s.setBlock (s.block.draw (s.reg x) (s.reg y) (s.spriteRows n)).1).setReg VF
      (flagByte (s.block.draw (s.reg x) (s.reg y) (s.spriteRows n)).2)).advance)

end Sys2Proof.Machine
end

