-- ==== Sys2Proof/Machine/IndexMemory.lean ====
section
/-! DEFINITION. The meanings of index arithmetic, font lookup, BCD, register block store and load (46_index_memory.md). -/

namespace Sys2Proof.Machine

/-- ADD I,Vx (R215): the old register is the addend, VF is written after it was read. -/
def execAddI (x : RegIdx) (s : State) : Host.Outcome State Fault Refusal :=
  .next (((s.setI (BitVec.ofNat 16 (indexSum s.I (s.reg x)))).setReg VF (indexOvfFlag s.I (s.reg x))).advance)

/-- LD F,Vx (R216). -/
def execLdF (x : RegIdx) (s : State) : Host.Outcome State Fault Refusal :=
  .next (s.setI (glyphAddr (s.reg x))).advance

/-- LD B,Vx (R217): the three addresses are checked before the first write. -/
def execLdB (x : RegIdx) (s : State) : Host.Outcome State Fault Refusal :=
  withRange (s.indexAddr 0) 3 <|
    .next (s.setMem (s.mem.writeBlock (s.indexAddr 0) (bcdDigits (s.reg x)))).advance

/-- LD [I],Vx (R218): registers 0..X inclusive; `I` is unchanged (D16, log entry 20). -/
def execStoreRegs (x : RegIdx) (s : State) : Host.Outcome State Fault Refusal :=
  withRange (s.indexAddr 0) (x.val + 1) <|
    .next (s.setMem (s.mem.writeBlock (s.indexAddr 0) (s.regsUpTo x))).advance

/-- LD Vx,[I] (R219): registers 0..X inclusive; `I` is unchanged (D16, log entry 20). -/
def execLoadRegs (x : RegIdx) (s : State) : Host.Outcome State Fault Refusal :=
  withRange (s.indexAddr 0) (x.val + 1) <|
    .next (s.setRegs (loadBlock s.mem (s.indexAddr 0) (x.val + 1) s.V)).advance

end Sys2Proof.Machine
end

