-- ==== Sys2Proof/Machine/IndexRandom.lean ====
section
/-! DEFINITION. The meanings of LD I,nnn and RND (42_index_random.md). -/

namespace Sys2Proof.Machine

/-- LD I,nnn (R140). -/
def execLdI (nnn : BitVec 12) (s : State) : Host.Outcome State Fault Refusal :=
  .next (s.setI (addrOperand nnn)).advance

/-- RND Vx,nn (R141): a fresh draw masked by the immediate. The drawn value is free (R142, log entry 1). -/
def execRnd (x : RegIdx) (nn : Byte) (s : State) : Host.Outcome State Fault Refusal :=
  .next (s.drawn.setReg x (s.draw &&& immOperand nn)).advance

end Sys2Proof.Machine
end

