-- ==== Sys2Proof/Machine/Keypad.lean ====
section
/-! DEFINITION. The meanings of the keypad instructions (44_keypad.md). -/

namespace Sys2Proof.Machine

/-- SKP Vx (R190). -/
def execSkp (x : RegIdx) (s : State) : Host.Outcome State Fault Refusal :=
  withKey (s.reg x) s (fun pressed => .next (s.skipIf pressed))

/-- SKNP Vx (R191). -/
def execSknp (x : RegIdx) (s : State) : Host.Outcome State Fault Refusal :=
  withKey (s.reg x) s (fun pressed => .next (s.skipIf (!pressed)))

/-- LD Vx,K (R192): polls; `pc` advances only while some key is held, and `Vx` is never written. -/
def execLdKey (_x : RegIdx) (s : State) : Host.Outcome State Fault Refusal :=
  .next (if s.anyKey then s.advance else s)

end Sys2Proof.Machine
end

