-- ==== Sys2Proof/Machine/Timers.lean ====
section
/-! DEFINITION. The meanings of the timer instructions (45_timers.md), which issue the block's commands DT_READ, DT_WRITE and
ST_WRITE (spec/00_scope.md R9). The tick that follows belongs to the Step (`State.endStep`). -/

namespace Sys2Proof.Machine

/-- LD Vx,DT (R200). -/
def execLdFromDT (x : RegIdx) (s : State) : Host.Outcome State Fault Refusal :=
  .next (s.setReg x s.block.dtRead).advance

/-- LD DT,Vx (R201). -/
def execLdDT (x : RegIdx) (s : State) : Host.Outcome State Fault Refusal :=
  .next (s.setBlock (s.block.dtWrite (s.reg x))).advance

/-- LD ST,Vx (R202). -/
def execLdST (x : RegIdx) (s : State) : Host.Outcome State Fault Refusal :=
  .next (s.setBlock (s.block.stWrite (s.reg x))).advance

end Sys2Proof.Machine
end

