-- ==== Sys2Proof/Machine/Step.lean ====
section
/-! DEFINITION. One Step (40_control_flow.md R100): keypad snapshot, fetch, decode, execute, tick. An error anywhere ends the Step with
no state, so the caller still holds the state from before it (60_exceptions.md R238). -/

namespace Sys2Proof.Machine

/-- "Step reads two bytes at the program counter, decodes them, executes one instruction (mutating Machine State and/or Framebuffer),
decrements timers, and returns" (R100). -/
def step (s : State) : Host.Outcome State Fault Refusal :=
  match s.beginStep.fetch with
  | .error f => raise f
  | .ok w =>
    match decodeWord w with
    | .error _ => raise (.invalidOpcode w)
    | .ok i =>
      match exec i s.beginStep with
      | .next t => .next t.endStep
      | .fault f => .fault f
      | .refused r => .refused r

/-- The state with an instruction's bytes, numbered as spec/opcode_table.json numbers them, stored where `step` fetches its next
instruction. It stands for the program load of R263, at the current `pc` (log entry 23). -/
def State.withFetchWord (s : State) (nbits w : Nat) : State := s.placeWord nbits w

end Sys2Proof.Machine
end

