-- ==== Sys2Proof/Machine/HostPorts.lean ====
section
/-! DEFINITION. What the outside world can do to the machine between two Steps (spec/00_scope.md R8, R10; 70_reset_and_hazards.md R260 to
R266; 44_keypad.md R194; 43_sprite_framebuffer.md R175 to R178; 45_timers.md R208). -/

namespace Sys2Proof.Machine

/-- The operations of the driver, the input source and the renderer that can change the state (R36). -/
inductive HostOp where
  /-- The driver initializes; `chg` is `CHG_AT_RESET`, open in the spec (R260, R261). -/
  | init (chg : Bool)
  /-- The driver loads a program, a raw byte sequence (R263). -/
  | load (bytes : List Byte)
  /-- The input source presses a key (R194). -/
  | press (k : Nat)
  /-- The input source releases a key (R194). -/
  | release (k : Nat)
  /-- The renderer clears the changed flag (R177). -/
  | chgClear
  deriving DecidableEq, Repr

/-- Initialization writes every piece of state; the random source is not reset (R261, R33). -/
def State.initialized (s : State) (chg : Bool) : State := { State.resetWith chg with draws := s.draws }

/-- "copied verbatim into memory starting at address 0x200" and nothing else (R263). -/
def State.loaded (s : State) (bytes : List Byte) : State := s.setMem (s.mem.writeBlock Config.progBase bytes)

/-- Set or clear one key flag (R194). -/
def State.setKey (s : State) (k : KeyIdx) (pressed : Bool) : State := { s with keyState := s.keyState.set k.val pressed }

/-- Press or release a key; above 15 "a caller contract violation", to which the spec gives no meaning (R194, R241). -/
def keyEvent (k : Nat) (pressed : Bool) (s : State) : Host.Outcome State Fault Refusal :=
  if h : k < 16 then .next (s.setKey ⟨k, h⟩ pressed) else .refused (.keyOutOfContract k)

/-- One host operation, between two Steps (R65, R265). A load that is too long raises LoadError and writes nothing (R263, R232). -/
def hostStep (op : HostOp) (s : State) : Host.Outcome State Fault Refusal :=
  match op with
  | .init chg => .next (s.initialized chg)
  | .load bytes => if bytes.length > Config.maxProgLen then raise (.loadError bytes.length) else .next (s.loaded bytes)
  | .press k => keyEvent k true s
  | .release k => keyEvent k false s
  | .chgClear => .next (s.setBlock s.block.chgClear)

/-- `PIXEL_AT(x, y)`; out of bounds is outside the port's contract (R175, R241). -/
def pixelAt (x y : Nat) (s : State) : Except Refusal Bool :=
  if hx : x < 64 then
    if hy : y < 32 then .ok (s.block.pixelAt ⟨x, hx⟩ ⟨y, hy⟩) else .error (.pixelOutOfContract x y)
  else .error (.pixelOutOfContract x y)

/-- `CHG_READ` (R176). -/
def chgRead (s : State) : Bool := s.block.chgRead

/-- `DT_READ_HOST` (R208). -/
def dtReadHost (s : State) : Byte := s.block.dtReadHost

/-- `ST_READ` (R208). -/
def stRead (s : State) : Byte := s.block.stRead

/-- What the driver's session does next: a host operation or a Step (R8, R264). -/
inductive DriverOp where
  | host (op : HostOp)
  | step
  deriving DecidableEq, Repr

/-- A session from before the first initialization, which is `none`: there only initialization has a meaning (R264, R266). -/
def driver (op : DriverOp) (m : Option State) : Host.Outcome State Fault Refusal :=
  match m, op with
  | none, .host (.init chg) => .next (State.resetWith chg)
  | none, _ => .refused .notInitialized
  | some s, .host h => hostStep h s
  | some s, .step => step s

end Sys2Proof.Machine
end

