-- ==== Sys2Proof/Safety.lean ====
section
/-! DEFINITION. What counts as a safe run, and the words the claims are stated in: the state a driver holds after a Step, runs of
Steps, the end of a run, the invariant, and what an instruction leaves unchanged. -/

namespace Sys2Proof.Machine

/-- The state that the driver holds after invoking a Step: the next one, or the same one when the Step raised (R236, R238). -/
def State.afterStep (s : State) : State :=
  match step s with
  | .next t => t
  | .fault _ => s
  | .refused _ => s

/-- The instruction that a Step at this state executes: the bytes at `pc` exist and decode to it (R100). -/
def State.executes (s : State) (i : Instr) : Prop := ∃ w, s.fetch = .ok w ∧ decodeWord w = .ok i

/-- `k` Steps, all without error, every one executing an instruction of `P`, lead from `s` to `t`. -/
inductive Runs (P : Instr → Prop) : Nat → State → State → Prop where
  | done (s : State) : Runs P 0 s s
  | more {k : Nat} {s t u : State} {i : Instr} :
      s.executes i → P i → step s = .next t → Runs P k t u → Runs P (k + 1) s u

/-- A safe run: `k` Steps from here meet no error. -/
def SafeFor : Nat → State → Prop
  | 0, _ => True
  | k + 1, s => ∃ t, step s = .next t ∧ SafeFor k t

/-- The end of a run, which the spec leaves to the model (R111, D29; log entry 26): `pc` is at a JP to itself and both timers are 0. -/
def Ended (s : State) : Prop := s.executes (.jp (s.pc.setWidth 12)) ∧ s.block.DT = 0 ∧ s.block.ST = 0

/-- What every reachable state between two Steps satisfies: memory in its canonical form; no instruction leaves `pc` above 4098
(R22); call-stack entries are addresses of calls, at most 4094 (R103); no snapshot outlives its Step (R35). -/
structure State.Inv (s : State) : Prop where
  mem_wf : s.mem.wf
  pc_le : s.pc.toNat ≤ 4098
  stack_le : ∀ k : Fin 16, s.stack[k].toNat ≤ 4094
  no_snapshot : s.key = none

/-- States that a driver can reach: a first initialization, then host operations and Steps in any order (R264, R266). -/
inductive Reachable : State → Prop where
  | init (chg : Bool) : Reachable (State.resetWith chg)
  | host {s t : State} (op : HostOp) : Reachable s → hostStep op s = .next t → Reachable t
  | step {s t : State} : Reachable s → step s = .next t → Reachable t

/-- A set bit of the sprite `rows`, drawn at `(x0, y0)`, lands on the pixel `(px, py)`: `S(px, py)` of R166, from the wraparound of
R157 and the bit order of R156. -/
def SpriteCovers (x0 y0 : Byte) (rows : List Byte) (px : PixX) (py : PixY) : Prop :=
  ∃ (r : Nat) (h : r < rows.length) (c : Nat),
    c < 8 ∧ (x0.toNat + c) % 64 = px.val ∧ (y0.toNat + r) % 32 = py.val ∧ rows[r].getLsbD (7 - c) = true

/-- The same for the operands of DRW in a state: row `r` is the byte at `I + r` (R155). -/
def State.DrwCovers (s : State) (x y : RegIdx) (n : Nat) (px : PixX) (py : PixY) : Prop :=
  ∃ r c : Nat, r < n ∧ c < 8 ∧ ((s.reg x).toNat + c) % 64 = px.val ∧ ((s.reg y).toNat + r) % 32 = py.val ∧
    (s.mem.read (s.I.toNat + r)).getLsbD (7 - c) = true

/-- Every register but those listed is unchanged. -/
def SameRegsBut (xs : List RegIdx) (s t : State) : Prop := ∀ r : RegIdx, r ∉ xs → t.reg r = s.reg r

/-- Every byte of memory reads as before. -/
def SameMem (s t : State) : Prop := ∀ a : Nat, t.mem.read a = s.mem.read a

/-- Every byte of memory outside `first .. first + count - 1` reads as before. -/
def SameMemOutside (first count : Nat) (s t : State) : Prop :=
  ∀ a : Nat, (a < first ∨ first + count ≤ a) → t.mem.read a = s.mem.read a

/-- The call stack is unchanged: every entry and the number in use. -/
def SameStack (s t : State) : Prop := t.sp = s.sp ∧ ∀ k : Fin 16, t.stack[k] = s.stack[k]

/-- The keypad is unchanged: the flags and the snapshot. -/
def SameKeys (s t : State) : Prop := t.keyState = s.keyState ∧ t.key = s.key

/-- Every pixel and the changed flag are unchanged. -/
def SameDisplay (s t : State) : Prop :=
  (∀ (px : PixX) (py : PixY), t.block.FB.pixel px py = s.block.FB.pixel px py) ∧ t.block.CHG = s.block.CHG

/-- Both timers are unchanged. -/
def SameTimers (s t : State) : Prop := t.block.DT = s.block.DT ∧ t.block.ST = s.block.ST

/-- Memory, call stack, keypad, display, timers and the draw counter are unchanged. -/
def SameRest (s t : State) : Prop :=
  SameMem s t ∧ SameStack s t ∧ SameKeys s t ∧ SameDisplay s t ∧ SameTimers s t ∧ t.draws = s.draws

/-- Everything but general registers and `pc` is unchanged: what a register instruction leaves alone. -/
def SameBesideRegs (s t : State) : Prop := t.I = s.I ∧ SameRest s t

/-- The general registers an instruction may write: its destination, and VF where R21 lists it as a flag writer. -/
def registersWritten : Instr → List RegIdx
  | .ldImm x _ | .addImm x _ | .ldReg x _ | .rnd x _ | .ldFromDT x => [x]
  | .orReg x _ | .andReg x _ | .xorReg x _ | .addReg x _ | .sub x _ | .shr x _ | .subn x _ | .shl x _ => [x, VF]
  | .drw _ _ _ | .addI _ => [VF]
  | .loadRegs x => (List.finRange 16).filter (fun r => r.val ≤ x.val)
  | .cls | .ret | .jp _ | .call _ | .seImm _ _ | .sneImm _ _ | .seReg _ _ | .sneReg _ _ | .ldI _ | .skp _ | .sknp _ | .ldKey _
  | .ldDT _ | .ldST _ | .ldF _ | .ldB _ | .storeRegs _ => []

end Sys2Proof.Machine
end

