-- ==== Sys2Proof/Certificates/Slice0/Obligations.lean ====
section
/-! DEFINITION. The statements for the provers. `R<n>` are the rules of spec/, `D<n>` the spec's own decisions (92_eei_decisions.md).
A statement that rests on such a decision, or on a choice of this model, has basis "derived" and names it here. Frames are said with
the words of Safety.lean. -/

open Sys2Proof Sys2Proof.Machine

/-! ### Encoding -/

/-- Words written out from the table of R76, one for each of the groups 0, 1, 3, 8, A, C, D, E, F. Numbers: the spec's general
knowledge but for 3XNN and DXYN (D13, log entry 6). -/
def Obligations.WrittenWordsDecode : Prop :=
  decodeWord 0x00E0 = .ok .cls ∧ decodeWord 0x1ABC = .ok (.jp 0xABC) ∧ decodeWord 0x3A02 = .ok (.seImm 10 2) ∧
  decodeWord 0x8124 = .ok (.addReg 1 2) ∧ decodeWord 0xA2F0 = .ok (.ldI 0x2F0) ∧ decodeWord 0xC10F = .ok (.rnd 1 0x0F) ∧
  decodeWord 0xDABC = .ok (.drw 10 11 12) ∧ decodeWord 0xE4A1 = .ok (.sknp 4) ∧ decodeWord 0xF307 = .ok (.ldFromDT 3) ∧
  decodeWord 0xF155 = .ok (.storeRegs 1)

/-- R73: the fields of a word rebuild it, in all three views. -/
def Obligations.FieldsRebuildTheWord : Prop :=
  ∀ w : Word,
    w.toNat = (fields w).T.val * 4096 + (fields w).X.val * 256 + (fields w).Y.val * 16 + (fields w).N.val ∧
    w.toNat = (fields w).T.val * 4096 + (fields w).X.val * 256 + (fields w).NN.toNat ∧
    w.toNat = (fields w).T.val * 4096 + (fields w).NNN.toNat

/-- R76: 33 rows, no two selected by one word; a word decodes exactly when it selects a row, and then to the instruction of that row.
Which bits a row examines is the spec's decision D12, the numbers D13 (log entries 6, 7). -/
def Obligations.DecoderFollowsOpcodeMap : Prop :=
  opcodeTable.length = 33 ∧
  (∀ w : Word, ∀ r ∈ opcodeTable, ∀ q ∈ opcodeTable, r.selects w = true → q.selects w = true → r = q) ∧
  (∀ w : Word, (∃ i, decodeWord w = .ok i) ↔ ∃ r ∈ opcodeTable, r.selects w = true) ∧
  (∀ (w : Word) (i : Instr), decodeWord w = .ok i → i.row ∈ opcodeTable ∧ i.row.selects w = true)

/-- R78 without its counts: the invalid words, group by group; every other word is an instruction. That group 0xB and 0NNN are invalid
is the spec's decision D14 (log entry 8); that 0XE0 and 0XEE for every X and 5XYn and 9XYn for every n are instructions its D12 (R77,
U5, log entry 7); the numbers are its general knowledge (D13, log entry 6). -/
def Obligations.InvalidWordsAreExactlyThese : Prop :=
  ∀ w : Word,
    ((w.toNat / 4096 = 0x0 ∧ w.toNat % 256 ∉ [0xE0, 0xEE]) ∨
      (w.toNat / 4096 = 0x8 ∧ w.toNat % 16 ∈ [0x8, 0x9, 0xA, 0xB, 0xC, 0xD, 0xF]) ∨
      w.toNat / 4096 = 0xB ∨
      (w.toNat / 4096 = 0xE ∧ w.toNat % 256 ∉ [0x9E, 0xA1]) ∨
      (w.toNat / 4096 = 0xF ∧ w.toNat % 256 ∉ [0x07, 0x0A, 0x15, 0x18, 0x1E, 0x29, 0x33, 0x55, 0x65]) →
        decodeWord w = .error (.invalidOpcode w)) ∧
    (¬ ((w.toNat / 4096 = 0x0 ∧ w.toNat % 256 ∉ [0xE0, 0xEE]) ∨
      (w.toNat / 4096 = 0x8 ∧ w.toNat % 16 ∈ [0x8, 0x9, 0xA, 0xB, 0xC, 0xD, 0xF]) ∨
      w.toNat / 4096 = 0xB ∨
      (w.toNat / 4096 = 0xE ∧ w.toNat % 256 ∉ [0x9E, 0xA1]) ∨
      (w.toNat / 4096 = 0xF ∧ w.toNat % 256 ∉ [0x07, 0x0A, 0x15, 0x18, 0x1E, 0x29, 0x33, 0x55, 0x65])) →
        ∃ i, decodeWord w = .ok i)

/-- Every well-formed instruction comes back from its word, as a word and as two bytes in memory order with whatever follows them. -/
def Obligations.DecodeGivesBackEncoded : Prop :=
  ∀ i : Instr, i.wellFormed = true →
    decodeWord (encode i) = .ok i ∧
    ∀ rest : List Byte, decodeBytes (highByte (encode i) :: lowByte (encode i) :: rest) = .ok (i, rest)

/-- The other direction: a decoded instruction is well-formed, and its canonical word is the word decoded, but for the bits that R77
says are ignored (D12, log entry 7). -/
def Obligations.EncodeGivesBackDecoded : Prop :=
  ∀ (w : Word) (i : Instr), decodeWord w = .ok i →
    i.wellFormed = true ∧
    match i with
    | .cls | .ret => encode i = w &&& 0xF0FF
    | .seReg _ _ | .sneReg _ _ => encode i = w &&& 0xFFF0
    | _ => encode i = w

/-! ### The Step -/

/-- R100: a Step runs the decoded instruction between the keypad snapshot and the tick, and what those two do; an error of the execute
phase is the Step's. The order of the tick and the snapshot are the spec's decisions D3, D19 (log entries 11, 13). -/
def Obligations.StepRunsTheDecodedInstruction : Prop :=
  ∀ (s : State) (i : Instr), s.pc.toNat ≤ 4094 →
    decodeWord (joinBytes (s.mem.read s.pc.toNat) (s.mem.read (s.pc.toNat + 1))) = .ok i →
    (∀ u, exec i s.beginStep = .next u → step s = .next u.endStep) ∧
    (∀ f, exec i s.beginStep = .fault f → step s = .fault f) ∧
    s.beginStep = { s with key := some s.keyState } ∧
    (∀ u : State, u.endStep.key = none ∧ u.endStep.block.DT.toNat = u.block.DT.toNat - 1 ∧
      u.endStep.block.ST.toNat = u.block.ST.toNat - 1 ∧
      u.endStep = { u with key := none, block := { u.block with DT := u.endStep.block.DT, ST := u.endStep.block.ST } })

/-- R54: the byte at `pc` is the high byte of the word, the byte at `pc + 1` the low one. -/
def Obligations.FetchIsBigEndian : Prop :=
  ∀ s : State, s.pc.toNat ≤ 4094 →
    ∃ w, s.fetch = .ok w ∧ w.toNat = (s.mem.read s.pc.toNat).toNat * 256 + (s.mem.read (s.pc.toNat + 1)).toNat ∧
      highByte w = s.mem.read s.pc.toNat ∧ lowByte w = s.mem.read (s.pc.toNat + 1)

/-- R100's two fetch checks. That the precondition's violation is an error is the spec's decision D32 (log entry 21). -/
def Obligations.FetchPastTheEndRaises : Prop :=
  ∀ s : State,
    (4096 ≤ s.pc.toNat → step s = .fault (.outOfRangeAccess s.pc.toNat)) ∧
    (s.pc.toNat = 4095 → step s = .fault (.outOfRangeAccess 4096))

/-- R231: a Step raises InvalidOpcode exactly when the word it fetched selects no row of R76; a word not fetched cannot raise it. The
numbers in the rows are the spec's general knowledge (D13, log entry 6), the bits they examine its decision D12 (log entry 7). -/
def Obligations.UnrecognizedWordRaisesInvalidOpcode : Prop :=
  ∀ (s : State) (w : Word),
    step s = .fault (.invalidOpcode w) ↔ s.fetch = .ok w ∧ ∀ r ∈ opcodeTable, r.selects w = false

/-! ### Register load, arithmetic and logic -/

/-- R120, R106: an immediate loaded into every register, VF included as an ordinary destination, and the skip on equality with one,
which writes nothing but `pc` (R102). Their opcode numbers are the two of these families that the source document shows. -/
def Obligations.LoadImmediateAndSkipIfEqual : Prop :=
  ∀ (x : RegIdx) (nn : Byte) (s : State),
    (∃ t, exec (.ldImm x nn) s = .next t ∧ t.reg x = nn ∧ SameRegsBut [x] s t ∧ t.pc = s.pc + 2 ∧ SameBesideRegs s t) ∧
    (∃ t, exec (.seImm x nn) s = .next t ∧ t.pc = (if s.reg x = nn then s.pc + 4 else s.pc + 2) ∧ SameRegsBut [] s t ∧
      SameBesideRegs s t) ∧
    decodeWord (packByte 0x6 x nn) = .ok (.ldImm x nn) ∧ decodeWord (packByte 0x3 x nn) = .ok (.seImm x nn)

/-- R121, R122: the two other forms without a flag, for every register, VF included as an ordinary destination. The opcode numbers 0x7
and 0x8 are the spec's general knowledge (D13, log entry 6). -/
def Obligations.AddImmediateAndCopyWriteNoFlag : Prop :=
  ∀ (x y : RegIdx) (nn : Byte) (s : State),
    (∃ t, exec (.addImm x nn) s = .next t ∧ (t.reg x).toNat = ((s.reg x).toNat + nn.toNat) % 256 ∧ SameRegsBut [x] s t ∧
      t.pc = s.pc + 2 ∧ SameBesideRegs s t) ∧
    (∃ t, exec (.ldReg x y) s = .next t ∧ t.reg x = s.reg y ∧ SameRegsBut [x] s t ∧ t.pc = s.pc + 2 ∧ SameBesideRegs s t) ∧
    decodeWord (packByte 0x7 x nn) = .ok (.addImm x nn) ∧ decodeWord (packNibbles 0x8 x y 0x0) = .ok (.ldReg x y)

/-- R123, R124, R125: the result bit by bit, VF reset. That with X = 15 the flag stands is R132, the spec's decision D10 (log
entry 14). -/
def Obligations.BitwiseOperationsResetVF : Prop :=
  ∀ (x y : RegIdx) (s : State),
    (∃ t, exec (.orReg x y) s = .next t ∧ t.reg VF = 0 ∧
      (x ≠ VF → ∀ k < 8, (t.reg x).getLsbD k = ((s.reg x).getLsbD k || (s.reg y).getLsbD k)) ∧
      SameRegsBut [x, VF] s t ∧ t.pc = s.pc + 2 ∧ SameBesideRegs s t) ∧
    (∃ t, exec (.andReg x y) s = .next t ∧ t.reg VF = 0 ∧
      (x ≠ VF → ∀ k < 8, (t.reg x).getLsbD k = ((s.reg x).getLsbD k && (s.reg y).getLsbD k)) ∧
      SameRegsBut [x, VF] s t ∧ t.pc = s.pc + 2 ∧ SameBesideRegs s t) ∧
    (∃ t, exec (.xorReg x y) s = .next t ∧ t.reg VF = 0 ∧
      (x ≠ VF → ∀ k < 8, (t.reg x).getLsbD k = ((s.reg x).getLsbD k ^^ (s.reg y).getLsbD k)) ∧
      SameRegsBut [x, VF] s t ∧ t.pc = s.pc + 2 ∧ SameBesideRegs s t)

/-- R126: the sum modulo 256, VF 1 exactly when it exceeds 255. With X = 15 the flag stands: R132, D10 (log entry 14). -/
def Obligations.AddReportsCarry : Prop :=
  ∀ (x y : RegIdx) (s : State),
    ∃ t, exec (.addReg x y) s = .next t ∧
      t.reg VF = (if (s.reg x).toNat + (s.reg y).toNat > 255 then 1 else 0) ∧
      (x ≠ VF → (t.reg x).toNat = ((s.reg x).toNat + (s.reg y).toNat) % 256) ∧
      SameRegsBut [x, VF] s t ∧ t.pc = s.pc + 2 ∧ SameBesideRegs s t

/-- R127, R129: the difference modulo 256 in both directions, VF 0 exactly on a borrow. With X = 15 the flag stands: R132, D10 (log
entry 14). -/
def Obligations.SubtractionsReportNotBorrow : Prop :=
  ∀ (x y : RegIdx) (s : State),
    (∃ t, exec (.sub x y) s = .next t ∧
      t.reg VF = (if (s.reg y).toNat > (s.reg x).toNat then 0 else 1) ∧
      (x ≠ VF → (t.reg x).toNat = ((s.reg x).toNat + 256 - (s.reg y).toNat) % 256) ∧
      SameRegsBut [x, VF] s t ∧ t.pc = s.pc + 2 ∧ SameBesideRegs s t) ∧
    (∃ t, exec (.subn x y) s = .next t ∧
      t.reg VF = (if (s.reg x).toNat > (s.reg y).toNat then 0 else 1) ∧
      (x ≠ VF → (t.reg x).toNat = ((s.reg y).toNat + 256 - (s.reg x).toNat) % 256) ∧
      SameRegsBut [x, VF] s t ∧ t.pc = s.pc + 2 ∧ SameBesideRegs s t)

/-- R128, R130: the source is `Vy`; SHR's flag is the source with bit 0 forced to 1, SHL's is bit 7 as 0 or 1 (D11, log entry 15).
With X = 15 the flag stands: R132, D10 (log entry 14). -/
def Obligations.ShiftsReadVy : Prop :=
  ∀ (x y : RegIdx) (s : State),
    (∃ t, exec (.shr x y) s = .next t ∧
      (t.reg VF).toNat = (s.reg y).toNat / 2 * 2 + 1 ∧
      (x ≠ VF → (t.reg x).toNat = (s.reg y).toNat / 2) ∧
      SameRegsBut [x, VF] s t ∧ t.pc = s.pc + 2 ∧ SameBesideRegs s t) ∧
    (∃ t, exec (.shl x y) s = .next t ∧
      (t.reg VF).toNat = (s.reg y).toNat / 128 ∧
      (x ≠ VF → (t.reg x).toNat = (s.reg y).toNat * 2 % 256) ∧
      SameRegsBut [x, VF] s t ∧ t.pc = s.pc + 2 ∧ SameBesideRegs s t)

/-! ### Control transfer -/

/-- R104: `pc` becomes the operand, nothing else changes; a jump to 0xFFF makes the next Step raise OutOfRangeAccess(4096). The opcode
number is the spec's general knowledge (D13, log entry 6), that error its decision D32 (log entry 21). -/
def Obligations.JumpSetsProgramCounter : Prop :=
  (∀ (nnn : BitVec 12) (s : State),
    (∃ t, exec (.jp nnn) s = .next t ∧ t.pc.toNat = nnn.toNat ∧ SameRegsBut [] s t ∧ SameBesideRegs s t) ∧
    decodeWord (packAddr 0x1 nnn) = .ok (.jp nnn)) ∧
  (∀ s : State, s.executes (.jp 0xFFF) → ∃ t, step s = .next t ∧ step t = .fault (.outOfRangeAccess 4096))

/-- R105: the call's own address is pushed. That a full stack is an error is the spec's decision D6 (log entry 10). -/
def Obligations.CallPushesItsOwnAddress : Prop :=
  ∀ (nnn : BitVec 12) (s : State),
    (∀ k : Fin 16, s.sp.val = k.val →
      ∃ t, exec (.call nnn) s = .next t ∧ t.pc.toNat = nnn.toNat ∧ t.sp.val = s.sp.val + 1 ∧ t.stack[k] = s.pc ∧
        (∀ j : Fin 16, j ≠ k → t.stack[j] = s.stack[j]) ∧ SameRegsBut [] s t ∧ t.I = s.I ∧ SameMem s t ∧ SameKeys s t ∧
        SameDisplay s t ∧ SameTimers s t ∧ t.draws = s.draws) ∧
    (s.sp.val = 16 → exec (.call nnn) s = .fault .stackOverflow)

/-- R103: the popped entry plus 2; the entry keeps its value. That an empty stack is an error is the spec's decision D6 (log
entry 10). -/
def Obligations.ReturnPopsAndAddsTwo : Prop :=
  ∀ s : State,
    (∀ k : Fin 16, s.sp.val = k.val + 1 →
      ∃ t, exec .ret s = .next t ∧ t.pc = s.stack[k] + 2 ∧ t.sp.val = k.val ∧ (∀ j : Fin 16, t.stack[j] = s.stack[j]) ∧
        SameRegsBut [] s t ∧ t.I = s.I ∧ SameMem s t ∧ SameKeys s t ∧ SameDisplay s t ∧ SameTimers s t ∧ t.draws = s.draws) ∧
    (s.sp.val = 0 → exec .ret s = .fault .stackUnderflow)

/-- R103 and R105 together: a subroutine that leaves the call stack as it found it returns to the word after the call, with the stack
pointer at its value from before the call. -/
def Obligations.ReturnComesBackAfterTheCall : Prop :=
  ∀ (nnn : BitVec 12) (s t u : State), exec (.call nnn) s = .next t → u.sp = t.sp → u.stack = t.stack →
    ∃ v, exec .ret u = .next v ∧ v.pc = s.pc + 2 ∧ v.sp = s.sp

/-- R107, R108, R109: 4 when the condition holds, else 2; nothing but `pc` changes. The opcode numbers are the spec's general knowledge
(D13, log entry 6), the ignored low nibble of 5XY0 and 9XY0 its decision D12 (R77, log entry 7). -/
def Obligations.SkipsOnDifferenceAndRegisters : Prop :=
  ∀ (x y : RegIdx) (nn : Byte) (n : Fin 16) (s : State),
    (∃ t, exec (.sneImm x nn) s = .next t ∧ t.pc = (if s.reg x ≠ nn then s.pc + 4 else s.pc + 2) ∧ SameRegsBut [] s t ∧
      SameBesideRegs s t) ∧
    (∃ t, exec (.seReg x y) s = .next t ∧ t.pc = (if s.reg x = s.reg y then s.pc + 4 else s.pc + 2) ∧ SameRegsBut [] s t ∧
      SameBesideRegs s t) ∧
    (∃ t, exec (.sneReg x y) s = .next t ∧ t.pc = (if s.reg x ≠ s.reg y then s.pc + 4 else s.pc + 2) ∧ SameRegsBut [] s t ∧
      SameBesideRegs s t) ∧
    decodeWord (packByte 0x4 x nn) = .ok (.sneImm x nn) ∧ decodeWord (packNibbles 0x5 x y n) = .ok (.seReg x y) ∧
    decodeWord (packNibbles 0x9 x y n) = .ok (.sneReg x y)

/-! ### Index load and random -/

/-- R140: the operand zero-extended; nothing but `I` and `pc` changes. The opcode number is the spec's general knowledge (D13, log
entry 6). -/
def Obligations.LoadIndexSetsIndex : Prop :=
  ∀ (nnn : BitVec 12) (s : State),
    (∃ t, exec (.ldI nnn) s = .next t ∧ t.I.toNat = nnn.toNat ∧ SameRegsBut [] s t ∧ t.pc = s.pc + 2 ∧ SameRest s t) ∧
    decodeWord (packAddr 0xA nnn) = .ok (.ldI nnn)

/-- R141, R142: the value drawn, masked by the immediate; so every bit that the immediate has not is 0. The draw is free but for its
bound, the spec's decision D20; that it is read off a counter which each RND advances, so that the next RND draws afresh, is the
model's choice (log entry 1). -/
def Obligations.RandomIsMaskedAndBounded : Prop :=
  ∀ (x : RegIdx) (nn : Byte) (s : State),
    ∃ t, exec (.rnd x nn) s = .next t ∧
      t.reg x = s.draw &&& nn ∧ s.draw.toNat = (Config.rng s.draws).val ∧ s.draw.toNat ≤ 254 ∧
      (∀ k < 8, nn.getLsbD k = false → (t.reg x).getLsbD k = false) ∧
      t.draws = s.draws + 1 ∧ SameRegsBut [x] s t ∧ t.pc = s.pc + 2 ∧ t.I = s.I ∧ SameMem s t ∧ SameStack s t ∧ SameKeys s t ∧
      SameDisplay s t ∧ SameTimers s t

/-! ### The block: display -/

/-- R151: all pixels 0 and the changed flag set, whatever they were. The ignored bits 11..8 are the spec's decision D12 (log entry 7),
the number 0xE0 its general knowledge (D13, log entry 6). -/
def Obligations.ClearBlanksAndMarksChanged : Prop :=
  ∀ s : State,
    (∃ t, exec .cls s = .next t ∧ (∀ (px : PixX) (py : PixY), t.block.FB.pixel px py = false) ∧ t.block.CHG = true ∧
      t.pc = s.pc + 2 ∧ SameRegsBut [] s t ∧ t.I = s.I ∧ SameMem s t ∧ SameStack s t ∧ SameKeys s t ∧ SameTimers s t ∧
      t.draws = s.draws) ∧
    ∀ x : Fin 16, decodeWord (packByte 0x0 x 0xE0) = .ok .cls

/-- R156, R157, R158: the DRAW command inverts exactly the pixels on which a set sprite bit lands, each coordinate taken modulo 64 and
32 by itself, and no other pixel. -/
def Obligations.DrawInvertsExactlyTheCoveredPixels : Prop :=
  ∀ (b : Block) (x0 y0 : Byte) (rows : List Byte), rows.length ≤ 15 →
    ∀ (px : PixX) (py : PixY),
      ((b.draw x0 y0 rows).1.FB.pixel px py = true ↔
        (b.FB.pixel px py = true ∧ ¬ SpriteCovers x0 y0 rows px py) ∨ (b.FB.pixel px py = false ∧ SpriteCovers x0 y0 rows px py))

/-- R166, the closed form of DRW. It rests on the spec's decisions D7 (collision accumulates, log entry 17) and, for X or Y = 15, D8
(operands latched before VF is written, log entry 16). -/
def Obligations.DrwClosedForm : Prop :=
  ∀ (x y : RegIdx) (n : Nat) (s : State), n ≤ 15 → (n = 0 ∨ s.I.toNat + n ≤ 4096) →
    ∃ t, exec (.drw x y n) s = .next t ∧
      (∀ (px : PixX) (py : PixY), t.block.FB.pixel px py = true ↔
        (s.block.FB.pixel px py = true ∧ ¬ s.DrwCovers x y n px py) ∨ (s.block.FB.pixel px py = false ∧ s.DrwCovers x y n px py)) ∧
      ((∃ px py, s.DrwCovers x y n px py ∧ s.block.FB.pixel px py = true) → t.reg VF = 1) ∧
      ((¬ ∃ px py, s.DrwCovers x y n px py ∧ s.block.FB.pixel px py = true) → t.reg VF = 0) ∧
      (t.block.CHG = true ↔ s.block.CHG = true ∨ ∃ px py, s.DrwCovers x y n px py) ∧
      t.pc = s.pc + 2 ∧ SameRegsBut [VF] s t ∧ t.I = s.I ∧ SameMem s t ∧ SameStack s t ∧ SameKeys s t ∧ SameTimers s t ∧
      t.draws = s.draws

/-- R161, R162: DRW completes in one Step's execute phase, advances `pc` by 2, and modifies neither `I`, memory, any register but VF,
the timers, the stack nor the keypad. For every count that a word encodes, 0 to 15 (R74). -/
def Obligations.DrwLeavesTheRestAlone : Prop :=
  ∀ (x y : RegIdx) (n : Nat) (s : State), n ≤ 15 → (n = 0 ∨ s.I.toNat + n ≤ 4096) →
    ∃ t, exec (.drw x y n) s = .next t ∧ t.pc = s.pc + 2 ∧ t.I = s.I ∧ SameMem s t ∧ SameRegsBut [VF] s t ∧ SameTimers s t ∧
      SameStack s t ∧ SameKeys s t ∧ t.draws = s.draws

/-- R155, R163: a row above 4095 raises with the lowest such address and draws nothing (D9, log entry 16; a count above 15, which no
word encodes, is log entry 27's); no rows write VF = 0, advance `pc` and do nothing else, whatever `I` holds. -/
def Obligations.DrwWithoutRowsOrOutOfRange : Prop :=
  ∀ (x y : RegIdx) (n : Nat) (s : State),
    (1 ≤ n → s.I.toNat + n - 1 > 4095 → exec (.drw x y n) s = .fault (.outOfRangeAccess (max s.I.toNat 4096))) ∧
    (n = 0 → ∃ t, exec (.drw x y n) s = .next t ∧ t.reg VF = 0 ∧ SameRegsBut [VF] s t ∧ t.pc = s.pc + 2 ∧ SameBesideRegs s t)

/-- R167: drawing the same rows twice at the same place modulo 64 and 32 restores every pixel; the first collision tells whether a
covered pixel was set, the second whether one was unset (D7, log entry 17). -/
def Obligations.DrawingTwiceRestoresThePixels : Prop :=
  ∀ (b : Block) (x0 y0 x1 y1 : Byte) (rows : List Byte), rows.length ≤ 15 →
    x0.toNat % 64 = x1.toNat % 64 → y0.toNat % 32 = y1.toNat % 32 →
    (∀ (px : PixX) (py : PixY), ((b.draw x0 y0 rows).1.draw x1 y1 rows).1.FB.pixel px py = b.FB.pixel px py) ∧
    ((b.draw x0 y0 rows).2 = true ↔ ∃ px py, SpriteCovers x0 y0 rows px py ∧ b.FB.pixel px py = true) ∧
    (((b.draw x0 y0 rows).1.draw x1 y1 rows).2 = true ↔ ∃ px py, SpriteCovers x0 y0 rows px py ∧ b.FB.pixel px py = false)

/-! ### Keypad -/

/-- R190, R191, R193: skip by the key whose number is the whole register; above 15 OutOfRangeAccess (D18, log entry 12). Nothing but
`pc` changes. -/
def Obligations.SkipsOnKeys : Prop :=
  ∀ (x : RegIdx) (s : State),
    (∀ k : KeyIdx, (s.reg x).toNat = k.val →
      (∃ t, exec (.skp x) s = .next t ∧ t.pc = (if s.keyAt k then s.pc + 4 else s.pc + 2) ∧ SameRegsBut [] s t ∧ SameBesideRegs s t) ∧
      (∃ t, exec (.sknp x) s = .next t ∧ t.pc = (if s.keyAt k then s.pc + 2 else s.pc + 4) ∧ SameRegsBut [] s t ∧
        SameBesideRegs s t)) ∧
    ((s.reg x).toNat > 15 →
      exec (.skp x) s = .fault (.outOfRangeAccess (s.reg x).toNat) ∧ exec (.sknp x) s = .fault (.outOfRangeAccess (s.reg x).toNat))

/-- R195 on SKP and SKNP: what a Step tests is the key flag as it stands when the Step starts (D19, log entry 11). -/
def Obligations.StepTestsKeysAsTheyStand : Prop :=
  ∀ (x : RegIdx) (k : KeyIdx) (s : State), (s.reg x).toNat = k.val →
    (s.executes (.skp x) → ∃ t, step s = .next t ∧ t.pc = (if s.keyState[k] then s.pc + 4 else s.pc + 2) ∧
      t.keyState = s.keyState) ∧
    (s.executes (.sknp x) → ∃ t, step s = .next t ∧ t.pc = (if s.keyState[k] then s.pc + 2 else s.pc + 4) ∧
      t.keyState = s.keyState)

/-- R192: LD Vx,K passes while some key is held, else stays; it never writes a register (D34, log entry 12). -/
def Obligations.KeyWaitPollsAndLoadsNothing : Prop :=
  ∀ (x : RegIdx) (s : State),
    ∃ t, exec (.ldKey x) s = .next t ∧ ((∃ k : KeyIdx, s.keyAt k = true) → t.pc = s.pc + 2) ∧
      ((∀ k : KeyIdx, s.keyAt k = false) → t.pc = s.pc) ∧ SameRegsBut [] s t ∧ SameBesideRegs s t

/-! ### The block: timers -/

/-- R200, R201, R202 on the execute phase. Which timer each number means is the spec's decision D33 (log entry 6). -/
def Obligations.TimerInstructionsMoveBytes : Prop :=
  ∀ (x : RegIdx) (s : State),
    (∃ t, exec (.ldFromDT x) s = .next t ∧ t.reg x = s.block.DT ∧ SameRegsBut [x] s t ∧ t.pc = s.pc + 2 ∧ SameBesideRegs s t) ∧
    (∃ t, exec (.ldDT x) s = .next t ∧ t.block.DT = s.reg x ∧ t.block.ST = s.block.ST ∧ SameRegsBut [] s t ∧ t.pc = s.pc + 2 ∧
      t.I = s.I ∧ SameMem s t ∧ SameStack s t ∧ SameKeys s t ∧ SameDisplay s t ∧ t.draws = s.draws) ∧
    (∃ t, exec (.ldST x) s = .next t ∧ t.block.ST = s.reg x ∧ t.block.DT = s.block.DT ∧ SameRegsBut [] s t ∧ t.pc = s.pc + 2 ∧
      t.I = s.I ∧ SameMem s t ∧ SameStack s t ∧ SameKeys s t ∧ SameDisplay s t ∧ t.draws = s.draws)

/-- R203, R205: every Step without error ends in exactly one tick of both timers, whatever the instruction; the tick stops at 0, writes
nothing but the two timers, and but for LD DT,Vx and LD ST,Vx it is the only thing that changes them. That it comes after the execute
phase is the spec's decision D3 (log entry 13). -/
def Obligations.EveryStepTicksOnce : Prop :=
  ∀ s t : State, step s = .next t →
    ∃ (i : Instr) (u : State), s.executes i ∧ exec i s.beginStep = .next u ∧
      t.block.DT.toNat = u.block.DT.toNat - 1 ∧ t.block.ST.toNat = u.block.ST.toNat - 1 ∧
      ((∀ x, i ≠ .ldDT x) → u.block.DT = s.block.DT) ∧ ((∀ x, i ≠ .ldST x) → u.block.ST = s.block.ST) ∧
      SameRegsBut [] u t ∧ t.I = u.I ∧ t.pc = u.pc ∧ SameMem u t ∧ SameStack u t ∧ t.keyState = u.keyState ∧ SameDisplay u t ∧
      t.draws = u.draws

/-- R204: a timer is read before the tick of its Step and written before it (D3, log entry 13). -/
def Obligations.TimerReadAndWriteComeBeforeTheTick : Prop :=
  ∀ (x : RegIdx) (s : State),
    (s.executes (.ldFromDT x) → ∃ t, step s = .next t ∧ t.reg x = s.block.DT ∧ t.block.DT.toNat = s.block.DT.toNat - 1) ∧
    (s.executes (.ldDT x) → ∃ t, step s = .next t ∧ t.block.DT.toNat = (s.reg x).toNat - 1) ∧
    (s.executes (.ldST x) → ∃ t, step s = .next t ∧ t.block.ST.toNat = (s.reg x).toNat - 1)

/-- R207: over `k` Steps without error and without a write to it, a timer is `k` lower, and never below 0. -/
def Obligations.TimersRunDownOverSteps : Prop :=
  (∀ (k : Nat) (s t : State), Runs (fun i => ∀ x, i ≠ .ldDT x) k s t → t.block.DT.toNat = s.block.DT.toNat - k) ∧
  (∀ (k : Nat) (s t : State), Runs (fun i => ∀ x, i ≠ .ldST x) k s t → t.block.ST.toNat = s.block.ST.toNat - k)

/-! ### Index arithmetic and memory -/

/-- R215: the sum modulo 65536; VF 1 past 0x0FFF. The limit is the spec's decision D15 (log entry 5). -/
def Obligations.AddToIndexReportsOverflow : Prop :=
  ∀ (x : RegIdx) (s : State),
    ∃ t, exec (.addI x) s = .next t ∧ t.I.toNat = (s.I.toNat + (s.reg x).toNat) % 65536 ∧
      t.reg VF = (if s.I.toNat + (s.reg x).toNat > 0x0FFF then 1 else 0) ∧ SameRegsBut [VF] s t ∧ t.pc = s.pc + 2 ∧ SameRest s t

/-- R216: five times the whole register (D17, log entry 19). -/
def Obligations.FontLookupMultipliesByFive : Prop :=
  ∀ (x : RegIdx) (s : State),
    ∃ t, exec (.ldF x) s = .next t ∧ t.I.toNat = (s.reg x).toNat * 5 ∧ SameRegsBut [] s t ∧ t.pc = s.pc + 2 ∧ SameRest s t

/-- R217: hundreds, tens and ones at `I`, `I + 1`, `I + 2`, or OutOfRangeAccess with nothing stored. The opcode number is the spec's
general knowledge (D13, log entry 6). -/
def Obligations.BcdStoresThreeDigits : Prop :=
  ∀ (x : RegIdx) (s : State),
    (s.I.toNat + 2 ≤ 4095 →
      ∃ t, exec (.ldB x) s = .next t ∧ (t.mem.read (s.indexAddr 0)).toNat = (s.reg x).toNat / 100 ∧
        (t.mem.read (s.indexAddr 1)).toNat = (s.reg x).toNat / 10 % 10 ∧ (t.mem.read (s.indexAddr 2)).toNat = (s.reg x).toNat % 10 ∧
        SameMemOutside (s.indexAddr 0) 3 s t ∧ SameRegsBut [] s t ∧ t.I = s.I ∧ t.pc = s.pc + 2 ∧ SameStack s t ∧ SameKeys s t ∧
        SameDisplay s t ∧ SameTimers s t ∧ t.draws = s.draws) ∧
    (s.I.toNat + 2 > 4095 → exec (.ldB x) s = .fault (.outOfRangeAccess (max s.I.toNat 4096))) ∧
    (∀ i : Nat, s.indexAddr i = s.I.toNat + i) ∧
    decodeWord (packByte 0xF x 0x33) = .ok (.ldB x)

/-- R218: V0 to Vx at `I` upward, or OutOfRangeAccess with nothing stored. That `I` is unchanged is the spec's decision D16 (log
entry 20). -/
def Obligations.StoreWritesRegistersUpToX : Prop :=
  ∀ (x : RegIdx) (s : State),
    (s.I.toNat + x.val ≤ 4095 →
      ∃ t, exec (.storeRegs x) s = .next t ∧ (∀ r : RegIdx, r ≤ x → t.mem.read (s.indexAddr r.val) = s.reg r) ∧
        SameMemOutside (s.indexAddr 0) (x.val + 1) s t ∧ SameRegsBut [] s t ∧ t.I = s.I ∧ t.pc = s.pc + 2 ∧ SameStack s t ∧
        SameKeys s t ∧ SameDisplay s t ∧ SameTimers s t ∧ t.draws = s.draws) ∧
    (s.I.toNat + x.val > 4095 → exec (.storeRegs x) s = .fault (.outOfRangeAccess (max s.I.toNat 4096)))

/-- R219: V0 to Vx from `I` upward, the registers above X unchanged, or OutOfRangeAccess with nothing loaded. That `I` is unchanged is
the spec's decision D16 (log entry 20). -/
def Obligations.LoadReadsRegistersUpToX : Prop :=
  ∀ (x : RegIdx) (s : State),
    (s.I.toNat + x.val ≤ 4095 →
      ∃ t, exec (.loadRegs x) s = .next t ∧ (∀ r : RegIdx, r ≤ x → t.reg r = s.mem.read (s.indexAddr r.val)) ∧
        (∀ r : RegIdx, x < r → t.reg r = s.reg r) ∧ t.pc = s.pc + 2 ∧ SameBesideRegs s t) ∧
    (s.I.toNat + x.val > 4095 → exec (.loadRegs x) s = .fault (.outOfRangeAccess (max s.I.toNat 4096)))

/-- R63: the Step after a register block store fetches the registers stored where `pc` then points, with no fence between. The model's
FX55 leaves `I` alone (D16, log entry 20), which plays no part here. -/
def Obligations.StoreIsSeenByTheNextFetch : Prop :=
  ∀ (x r q : RegIdx) (s : State), s.executes (.storeRegs x) → s.I.toNat + x.val ≤ 4095 → q.val = r.val + 1 → q ≤ x →
    s.indexAddr r.val = s.pc.toNat + 2 →
      ∃ t w, step s = .next t ∧ t.fetch = .ok w ∧ highByte w = s.reg r ∧ lowByte w = s.reg q

/-! ### Errors -/

/-- R235, R239: a Step raises exactly in these cases and with this value: fetch, decode, then the selected instruction's one check. The
checks are the spec's decisions D6, D9, D18, D32 (log entries 10, 12, 16, 21), the rows of the opcode map D12, D13 (log entries 6, 7). -/
def Obligations.StepRaisesExactlyInTheListedCases : Prop :=
  ∀ (s : State) (f : Fault),
    step s = .fault f ↔
      (s.pc.toNat > 4094 ∧ f = .outOfRangeAccess (max s.pc.toNat 4096)) ∨
      (∃ w, s.fetch = .ok w ∧ (∀ r ∈ opcodeTable, r.selects w = false) ∧ f = .invalidOpcode w) ∨
      (∃ nnn, s.executes (.call nnn) ∧ s.sp.val = 16 ∧ f = .stackOverflow) ∨
      (s.executes .ret ∧ s.sp.val = 0 ∧ f = .stackUnderflow) ∨
      (∃ x y n, s.executes (.drw x y n) ∧ 1 ≤ n ∧ s.I.toNat + n - 1 > 4095 ∧ f = .outOfRangeAccess (max s.I.toNat 4096)) ∨
      (∃ x, s.executes (.ldB x) ∧ s.I.toNat + 2 > 4095 ∧ f = .outOfRangeAccess (max s.I.toNat 4096)) ∨
      (∃ x, (s.executes (.storeRegs x) ∨ s.executes (.loadRegs x)) ∧ s.I.toNat + x.val > 4095 ∧
        f = .outOfRangeAccess (max s.I.toNat 4096)) ∨
      (∃ x, (s.executes (.skp x) ∨ s.executes (.sknp x)) ∧ (s.reg x).toNat > 15 ∧ f = .outOfRangeAccess (s.reg x).toNat)

/-- R80, R2: every word is an instruction with a meaning or an InvalidOpcode: no instruction and no Step is ever refused. -/
def Obligations.NothingIsRefused : Prop :=
  (∀ (i : Instr) (s : State) (r : Refusal), exec i s ≠ .refused r) ∧ (∀ (s : State) (r : Refusal), step s ≠ .refused r)

/-- R238, R240: after an error the driver holds the very state from before, and the next Step raises the same error, also after key
events and a clear of the changed flag in between (D4, log entry 9). -/
def Obligations.ErrorsRepeatUntilReload : Prop :=
  ∀ (s : State) (f : Fault), step s = .fault f →
    s.afterStep = s ∧ step s.afterStep = .fault f ∧
    ∀ (op : HostOp) (u : State), ((∃ k, op = .press k) ∨ (∃ k, op = .release k) ∨ op = .chgClear) →
      hostStep op s = .next u → step u = .fault f

/-! ### Who writes what -/

/-- R110: what every instruction does to `pc`, exhaustively. -/
def Obligations.EveryInstructionsEffectOnPc : Prop :=
  ∀ (i : Instr) (s t : State), exec i s = .next t →
    match i with
    | .jp nnn => t.pc.toNat = nnn.toNat
    | .call nnn => t.pc.toNat = nnn.toNat
    | .ret => ∀ k : Fin 16, s.sp.val = k.val + 1 → t.pc = s.stack[k] + 2
    | .seImm _ _ | .sneImm _ _ | .seReg _ _ | .sneReg _ _ | .skp _ | .sknp _ => t.pc = s.pc + 4 ∨ t.pc = s.pc + 2
    | .ldKey _ => ((∃ k : KeyIdx, s.keyAt k = true) → t.pc = s.pc + 2) ∧ ((∀ k : KeyIdx, s.keyAt k = false) → t.pc = s.pc)
    | _ => t.pc = s.pc + 2

/-- R21: no instruction writes a general register but its destination and, where it is one of the listed flag writers, VF. -/
def Obligations.OnlyDestinationsAndFlagsAreWritten : Prop :=
  ∀ (i : Instr) (s t : State), exec i s = .next t → SameRegsBut (registersWritten i) s t

/-- R57, R59: memory is written by LD B,Vx (three bytes from `I`) and LD [I],Vx (X + 1 bytes from `I`) and by no other instruction. -/
def Obligations.OnlyBcdAndBlockStoreWriteMemory : Prop :=
  ∀ (i : Instr) (s t : State), exec i s = .next t →
    match i with
    | .ldB _ => SameMemOutside (s.indexAddr 0) 3 s t
    | .storeRegs x => SameMemOutside (s.indexAddr 0) (x.val + 1) s t
    | _ => SameMem s t

/-- R24, R27, R28, R36, R59: the call stack is touched by CALL and RET only, `I` by LD I, ADD I and LD F only, the keypad by no
instruction; the draw counter, the model's own (log entry 1), by RND only. That LD [I],Vx and LD Vx,[I] leave `I` alone is the spec's
decision D16 (log entry 20). -/
def Obligations.OnlyNamedInstructionsWriteStackAndIndex : Prop :=
  ∀ (i : Instr) (s t : State), exec i s = .next t →
    ((∀ nnn, i ≠ .call nnn) → i ≠ .ret → SameStack s t) ∧
    ((∀ nnn, i ≠ .ldI nnn) → (∀ x, i ≠ .addI x) → (∀ x, i ≠ .ldF x) → t.I = s.I) ∧
    SameKeys s t ∧
    ((∀ x nn, i ≠ .rnd x nn) → t.draws = s.draws)

/-- R29, R30, R210: pixels are written by CLS and DRW only, which never clear the changed flag; DT by LD DT,Vx and ST by LD ST,Vx only
(the tick is the Step's). -/
def Obligations.OnlyNamedInstructionsWriteTheBlock : Prop :=
  ∀ (i : Instr) (s t : State), exec i s = .next t →
    (i ≠ .cls → (∀ x y n, i ≠ .drw x y n) → SameDisplay s t) ∧
    (s.block.CHG = true → t.block.CHG = true) ∧
    ((∀ x, i ≠ .ldDT x) → t.block.DT = s.block.DT) ∧
    ((∀ x, i ≠ .ldST x) → t.block.ST = s.block.ST)

/-- R26, R30: no program can observe the changed flag or the sound timer: two states that differ only in them take Steps that differ only
in them, and raise the same errors. That no instruction reads the sound timer is the spec's general knowledge (R200, D33, log
entry 6). -/
def Obligations.ChangedFlagAndSoundTimerAreInvisible : Prop :=
  ∀ (s : State) (chg : Bool) (st : Byte),
    (∀ t, step s = .next t → ∃ (chg' : Bool) (st' : Byte),
      step (s.setBlock { s.block with CHG := chg, ST := st }) = .next (t.setBlock { t.block with CHG := chg', ST := st' })) ∧
    (∀ f, step s = .fault f → step (s.setBlock { s.block with CHG := chg, ST := st }) = .fault f)

/-! ### Invariant -/

/-- Every Step keeps the invariant: canonical memory, `pc` at most 4098 (R22), call-stack entries at most 4094 (R103), no snapshot
between Steps (R35). -/
def Obligations.StepKeepsTheInvariant : Prop :=
  ∀ s t : State, s.Inv → step s = .next t → t.Inv

/-- The invariant holds after reset, whatever `CHG_AT_RESET` is. -/
def Obligations.ResetMeetsTheInvariant : Prop :=
  (∀ chg : Bool, (State.resetWith chg).Inv) ∧ State.reset.Inv

/-- Every host operation keeps the invariant too, so that it holds of every state a driver can reach. -/
def Obligations.HostOperationsKeepTheInvariant : Prop :=
  (∀ (op : HostOp) (s t : State), s.Inv → hostStep op s = .next t → t.Inv) ∧ ∀ s : State, Reachable s → s.Inv

/-! ### Reset and host operations -/

/-- R261, R38: what initialization leaves, for both values of the open parameter `CHG_AT_RESET` (log entry 2). `I`, `sp`, DT and ST are
the spec's decision D21 (log entry 3); the glyph bytes, written out here from R38's table, are its general knowledge (D22, PRESUMED,
log entry 4); the random source is not reset (R33). R266: before the first initialization everything else is refused (D21, log
entry 24). -/
def Obligations.InitializationLeavesTheResetState : Prop :=
  (∀ (s : State) (chg : Bool),
    ∃ t, hostStep (.init chg) s = .next t ∧
      (∀ r : RegIdx, t.reg r = 0) ∧ t.pc = 0x200 ∧ t.I = 0 ∧ t.sp.val = 0 ∧ (∀ k : Fin 16, t.stack[k] = 0) ∧
      (∀ k : KeyIdx, t.keyState[k] = false) ∧ (∀ (px : PixX) (py : PixY), t.block.FB.pixel px py = false) ∧ t.block.CHG = chg ∧
      t.block.DT = 0 ∧ t.block.ST = 0 ∧
      (List.range 80).map t.mem.read =
        [0xF0, 0x90, 0x90, 0x90, 0xF0] ++ [0x20, 0x60, 0x20, 0x20, 0x70] ++ [0xF0, 0x10, 0xF0, 0x80, 0xF0] ++
        [0xF0, 0x10, 0xF0, 0x10, 0xF0] ++ [0x90, 0x90, 0xF0, 0x10, 0x10] ++ [0xF0, 0x80, 0xF0, 0x10, 0xF0] ++
        [0xF0, 0x80, 0xF0, 0x90, 0xF0] ++ [0xF0, 0x10, 0x20, 0x40, 0x40] ++ [0xF0, 0x90, 0xF0, 0x90, 0xF0] ++
        [0xF0, 0x90, 0xF0, 0x10, 0xF0] ++ [0xF0, 0x90, 0xF0, 0x90, 0x90] ++ [0xE0, 0x90, 0xE0, 0x90, 0xE0] ++
        [0xF0, 0x80, 0x80, 0x80, 0xF0] ++ [0xE0, 0x90, 0x90, 0x90, 0xE0] ++ [0xF0, 0x80, 0xF0, 0x80, 0xF0] ++
        [0xF0, 0x80, 0xF0, 0x80, 0x80] ∧
      (∀ a : Nat, 80 ≤ a → t.mem.read a = 0) ∧ t.draws = s.draws ∧ t = { State.resetWith chg with draws := s.draws }) ∧
  (∀ chg : Bool, driver (.host (.init chg)) none = .next (State.resetWith chg)) ∧
  (∀ op : DriverOp, (∀ chg, op ≠ .host (.init chg)) → driver op none = .refused .notInitialized)

/-- R66, R232: a load that fits writes exactly its bytes from 0x200 and nothing else; one that does not raises LoadError with the offered
length and nothing else raises LoadError. That an empty load is accepted is the spec's decision D30 (log entry 25), that the error
records the length D5 (R230, log entry 9). -/
def Obligations.LoadCopiesOrRaises : Prop :=
  ∀ (bs : List Byte) (s : State),
    (bs.length ≤ 3584 →
      ∃ t, hostStep (.load bs) s = .next t ∧ (∀ (k : Nat) (h : k < bs.length), t.mem.read (0x200 + k) = bs[k]) ∧
        SameMemOutside 0x200 bs.length s t ∧ t = { s with mem := t.mem }) ∧
    (bs.length > 3584 → hostStep (.load bs) s = .fault (.loadError bs.length)) ∧
    (∀ n : Nat, step s ≠ .fault (.loadError n)) ∧ (∀ (i : Instr) (n : Nat), exec i s ≠ .fault (.loadError n))

/-- R194: press sets and release clears one key flag, each idempotent, and writes nothing else. Above 15 the spec gives no meaning
(R194, U14); that the model refuses such a move by name is log entry 24's. -/
def Obligations.KeyEventsSetOneFlag : Prop :=
  ∀ (k : KeyIdx) (s : State),
    (∃ t, hostStep (.press k.val) s = .next t ∧ t.keyState[k] = true ∧ (∀ j : KeyIdx, j ≠ k → t.keyState[j] = s.keyState[j]) ∧
      t = { s with keyState := t.keyState } ∧ hostStep (.press k.val) t = .next t) ∧
    (∃ t, hostStep (.release k.val) s = .next t ∧ t.keyState[k] = false ∧ (∀ j : KeyIdx, j ≠ k → t.keyState[j] = s.keyState[j]) ∧
      t = { s with keyState := t.keyState } ∧ hostStep (.release k.val) t = .next t) ∧
    (∀ n : Nat, 15 < n → hostStep (.press n) s = .refused (.keyOutOfContract n) ∧
      hostStep (.release n) s = .refused (.keyOutOfContract n))

/-- R177: CHG_CLEAR clears the changed flag and changes nothing else, and nothing but it and initialization can clear the flag. -/
def Obligations.OnlyTheRendererClearsTheChangedFlag : Prop :=
  ∀ s : State,
    (∃ t, hostStep .chgClear s = .next t ∧ t.block.CHG = false ∧ t = { s with block := { s.block with CHG := false } }) ∧
    (∀ t, step s = .next t → s.block.CHG = true → t.block.CHG = true) ∧
    (∀ (op : HostOp) (t : State), hostStep op s = .next t → s.block.CHG = true → t.block.CHG = false →
      op = .chgClear ∨ ∃ chg, op = .init chg)

/-- R111: a Step at a jump to itself changes nothing but the timers, and at the model's end of a run (both timers 0, D29, log entry 26)
nothing at all, however many Steps follow. -/
def Obligations.JumpToItselfOnlyTicks : Prop :=
  ∀ s : State, s.key = none →
    (s.executes (.jp (s.pc.setWidth 12)) →
      ∃ t, step s = .next t ∧ t.pc = s.pc ∧ t.block.DT.toNat = s.block.DT.toNat - 1 ∧ t.block.ST.toNat = s.block.ST.toNat - 1 ∧
        t = { s with block := { s.block with DT := t.block.DT, ST := t.block.ST } }) ∧
    (Ended s → step s = .next s ∧ ∀ k : Nat, SafeFor k s)
end

