-- ==== Sys2Proof/Laws/Block.lean ====
section
/-! SUPPORT. The block's operations, pixel by pixel. -/

namespace Sys2Proof.Machine

@[simp] theorem Framebuffer.pixel_blank (px : PixX) (py : PixY) : Framebuffer.blank.pixel px py = false := by
  simp [Framebuffer.blank, Framebuffer.pixel]

/-- Flipping inverts the one pixel and no other (R158). -/
theorem Framebuffer.pixel_flip (fb : Framebuffer) (px qx : PixX) (py qy : PixY) :
    (fb.flip px py).pixel qx qy = (fb.pixel qx qy ^^ decide (qx = px ∧ qy = py)) := by
  simp only [Framebuffer.flip, Framebuffer.pixel, Fin.getElem_fin, Vector.getElem_set]
  by_cases hy : py = qy
  · subst hy
    simp [Fin.ext_iff]
  · have : py.val ≠ qy.val := fun h => hy (Fin.ext h)
    simp [this, Ne.symm hy]

theorem Framebuffer.pixel_xorPixel (fb : Framebuffer) (px qx : PixX) (py qy : PixY) (bit : Bool) :
    (fb.xorPixel px py bit).pixel qx qy = (fb.pixel qx qy ^^ (bit && decide (qx = px ∧ qy = py))) := by
  cases bit <;> simp [Framebuffer.xorPixel, Framebuffer.pixel_flip]

/-- Two grids with the same pixels are equal. -/
theorem Framebuffer.ext_pixel {f g : Framebuffer} (h : ∀ px py, f.pixel px py = g.pixel px py) : f = g := by
  apply Vector.ext
  intro i hi
  apply BitVec.eq_of_getLsbD_eq
  intro j hj
  exact h ⟨j, hj⟩ ⟨i, hi⟩

theorem toNat_wrapX (x0 : Byte) (c : Nat) : (wrapX x0 c).val = (x0.toNat + c) % 64 := rfl

theorem toNat_wrapY (y0 : Byte) (r : Nat) : (wrapY y0 r).val = (y0.toNat + r) % 32 := rfl

theorem toNat_countDown (t : Byte) : (countDown t).toNat = t.toNat - 1 := by
  unfold countDown
  split
  · next h => simp [h]
  · next h =>
    bv_omega

end Sys2Proof.Machine
end

