-- ==== Sys2Proof/Laws/Decode.lean ====
section
/-! SUPPORT. Fields of a packed word, and what each decoding group can answer. -/

namespace Sys2Proof

section fieldsOfPackedWords
variable (t x y n : Fin 16) (nn : Byte) (nnn : BitVec 12)

@[simp] theorem fields_full (w : Word) : (fields w).full = w := rfl

@[simp] theorem fields_packNibbles_T : (fields (packNibbles t x y n)).T = t := by
  apply Fin.ext; simp [fields, packNibbles]; omega
@[simp] theorem fields_packNibbles_X : (fields (packNibbles t x y n)).X = x := by
  apply Fin.ext; simp [fields, packNibbles]; omega
@[simp] theorem fields_packNibbles_Y : (fields (packNibbles t x y n)).Y = y := by
  apply Fin.ext; simp [fields, packNibbles]; omega
@[simp] theorem fields_packNibbles_N : (fields (packNibbles t x y n)).N = n := by
  apply Fin.ext; simp [fields, packNibbles]; omega

@[simp] theorem fields_packByte_T : (fields (packByte t x nn)).T = t := by
  apply Fin.ext; simp [fields, packByte]; omega
@[simp] theorem fields_packByte_X : (fields (packByte t x nn)).X = x := by
  apply Fin.ext; simp [fields, packByte]; omega
@[simp] theorem fields_packByte_NN : (fields (packByte t x nn)).NN = nn := by
  apply BitVec.eq_of_toNat_eq; simp [fields, packByte]; omega

@[simp] theorem fields_packAddr_T : (fields (packAddr t nnn)).T = t := by
  apply Fin.ext; simp [fields, packAddr]; omega
@[simp] theorem fields_packAddr_NNN : (fields (packAddr t nnn)).NNN = nnn := by
  apply BitVec.eq_of_toNat_eq; simp [fields, packAddr]; omega

end fieldsOfPackedWords

theorem fields_T_val (w : Word) : (fields w).T.val = w.toNat / 4096 := by
  have := w.isLt
  simp [fields]; omega
theorem fields_X_val (w : Word) : (fields w).X.val = w.toNat / 256 % 16 := by simp [fields]; omega
theorem fields_Y_val (w : Word) : (fields w).Y.val = w.toNat / 16 % 16 := by simp [fields]; omega
theorem fields_N_val (w : Word) : (fields w).N.val = w.toNat % 16 := by simp [fields]
theorem fields_NN_toNat (w : Word) : (fields w).NN.toNat = w.toNat % 256 := by simp [fields]
theorem fields_NNN_toNat (w : Word) : (fields w).NNN.toNat = w.toNat % 4096 := by simp [fields]

theorem fields_NN_eq_iff {w : Word} {b : Byte} : (fields w).NN = b ↔ w.toNat % 256 = b.toNat := by
  rw [← BitVec.toNat_inj, fields_NN_toNat]

@[simp] theorem highByte_joinBytes (hi lo : Byte) : highByte (joinBytes hi lo) = hi := by
  apply BitVec.eq_of_toNat_eq; simp [highByte, joinBytes]; omega
@[simp] theorem lowByte_joinBytes (hi lo : Byte) : lowByte (joinBytes hi lo) = lo := by
  apply BitVec.eq_of_toNat_eq; simp [lowByte, joinBytes]; omega
@[simp] theorem joinBytes_highByte_lowByte (w : Word) : joinBytes (highByte w) (lowByte w) = w := by
  have := w.isLt
  apply BitVec.eq_of_toNat_eq; simp [highByte, lowByte, joinBytes]; omega

/-! ### The masks of the opcode map -/

theorem toNat_and_low (w : Word) (k : Nat) (hk : k ≤ 16) : (w &&& BitVec.ofNat 16 (2 ^ k - 1)).toNat = w.toNat % 2 ^ k := by
  have : 2 ^ k ≤ 2 ^ 16 := Nat.pow_le_pow_right (by decide) hk
  have : 0 < 2 ^ k := Nat.two_pow_pos k
  rw [BitVec.toNat_and, BitVec.toNat_ofNat, Nat.mod_eq_of_lt (by omega), Nat.and_two_pow_sub_one_eq_mod]

theorem toNat_and_F000 (w : Word) : (w &&& 0xF000#16).toNat = w.toNat / 4096 * 4096 := by
  have hw := w.isLt
  have : w &&& 0xF000#16 = (w >>> 12) <<< 12 := by
    apply BitVec.eq_of_getLsbD_eq
    intro i hi
    interval_cases i <;> simp
  rw [this]
  simp only [BitVec.toNat_shiftLeft, BitVec.toNat_ushiftRight]
  omega

theorem toNat_and_high_low (w : Word) (k : Nat) (hk : k ≤ 12) :
    (w &&& (0xF000#16 ||| BitVec.ofNat 16 (2 ^ k - 1))).toNat = w.toNat / 4096 * 4096 + w.toNat % 2 ^ k := by
  have hlow := toNat_and_low w k (by omega)
  have hhigh := toNat_and_F000 w
  have hz : (w &&& 0xF000#16) &&& (w &&& BitVec.ofNat 16 (2 ^ k - 1)) = 0#16 := by
    have : 0xF000#16 &&& BitVec.ofNat 16 (2 ^ k - 1) = 0#16 := by interval_cases k <;> decide
    calc (w &&& 0xF000#16) &&& (w &&& BitVec.ofNat 16 (2 ^ k - 1))
        = w &&& (0xF000#16 &&& BitVec.ofNat 16 (2 ^ k - 1)) := by ac_nf
      _ = 0#16 := by rw [this]; simp
  have hor : w &&& (0xF000#16 ||| BitVec.ofNat 16 (2 ^ k - 1)) = (w &&& 0xF000#16) + (w &&& BitVec.ofNat 16 (2 ^ k - 1)) := by
    rw [BitVec.add_eq_or_of_and_eq_zero _ _ hz]
    apply BitVec.eq_of_getLsbD_eq
    intro i _
    simp [Bool.and_or_distrib_left]
  have : 2 ^ k ≤ 2 ^ 12 := Nat.pow_le_pow_right (by decide) hk
  have := Nat.mod_lt w.toNat (Nat.two_pow_pos k)
  have := w.isLt
  rw [hor, BitVec.toNat_add, hhigh, hlow, Nat.mod_eq_of_lt (by omega)]

theorem toNat_and_F0FF (w : Word) : (w &&& 0xF0FF#16).toNat = w.toNat / 4096 * 4096 + w.toNat % 256 :=
  toNat_and_high_low w 8 (by decide)

theorem toNat_and_F00F (w : Word) : (w &&& 0xF00F#16).toNat = w.toNat / 4096 * 4096 + w.toNat % 16 :=
  toNat_and_high_low w 4 (by decide)

theorem toNat_and_FFF0 (w : Word) : (w &&& 0xFFF0#16).toNat = w.toNat / 16 * 16 := by
  have hw := w.isLt
  have : w &&& 0xFFF0#16 = (w >>> 4) <<< 4 := by
    apply BitVec.eq_of_getLsbD_eq
    intro i hi
    interval_cases i <;> simp
  rw [this]
  simp only [BitVec.toNat_shiftLeft, BitVec.toNat_ushiftRight]
  omega

theorem selects_F000 (b w : Word) : (OpcodeRow.mk 0xF000 b).selects w = true ↔ w.toNat / 4096 * 4096 = b.toNat := by
  rw [OpcodeRow.selects, beq_iff_eq, ← BitVec.toNat_inj]
  exact toNat_and_F000 w ▸ Iff.rfl

theorem selects_F0FF (b w : Word) :
    (OpcodeRow.mk 0xF0FF b).selects w = true ↔ w.toNat / 4096 * 4096 + w.toNat % 256 = b.toNat := by
  rw [OpcodeRow.selects, beq_iff_eq, ← BitVec.toNat_inj]
  exact toNat_and_F0FF w ▸ Iff.rfl

theorem selects_F00F (b w : Word) :
    (OpcodeRow.mk 0xF00F b).selects w = true ↔ w.toNat / 4096 * 4096 + w.toNat % 16 = b.toNat := by
  rw [OpcodeRow.selects, beq_iff_eq, ← BitVec.toNat_inj]
  exact toNat_and_F00F w ▸ Iff.rfl

theorem toNat_packNibbles (t x y n : Fin 16) :
    (packNibbles t x y n).toNat = t.val * 4096 + x.val * 256 + y.val * 16 + n.val := by
  simp only [packNibbles, BitVec.toNat_ofNat]; omega

theorem toNat_packByte (t x : Fin 16) (nn : Byte) : (packByte t x nn).toNat = t.val * 4096 + x.val * 256 + nn.toNat := by
  have := nn.isLt
  simp only [packByte, BitVec.toNat_ofNat]; omega

theorem toNat_packAddr (t : Fin 16) (nnn : BitVec 12) : (packAddr t nnn).toNat = t.val * 4096 + nnn.toNat := by
  have := nnn.isLt
  simp only [packAddr, BitVec.toNat_ofNat]; omega

end Sys2Proof
end

