-- ==== Sys2Proof/Laws/Memory.lean ====
section
/-! SUPPORT. What reading, writing and the canonical form of memory do to one another. Callers cite these and do not unfold the list
operations. -/

namespace Sys2Proof.Machine

@[simp] theorem Memory.read_nil (a : Nat) : Memory.read [] a = initialByte a := rfl

theorem Memory.read_cons (c : Host.Cell) (m : Memory) (a : Nat) :
    Memory.read (c :: m) a = if c.1 = a then c.2 else m.read a := rfl

theorem Memory.read_erase (m : Memory) (a b : Nat) :
    (m.erase a).read b = if b = a then initialByte b else m.read b := by
  induction m with
  | nil => simp [Memory.erase]
  | cons c m ih =>
    simp only [Memory.erase, List.filter_cons] at ih ⊢
    by_cases hc : c.1 = a
    · simp only [hc, bne_self_eq_false, Bool.false_eq_true, if_false, ih, Memory.read_cons]
      by_cases hb : b = a
      · simp [hb]
      · simp [hb, Ne.symm hb]
    · simp only [bne_iff_ne, ne_eq, hc, not_false_eq_true, if_true, Memory.read_cons, ih]
      by_cases hb : b = a
      · simp [hb, hc]
      · simp [hb]

theorem Memory.read_insert (m : Memory) (a b : Nat) (v : Byte) (h : ∀ c ∈ m, c.1 ≠ a) :
    (m.insert (a, v)).read b = if b = a then v else m.read b := by
  induction m with
  | nil => simp [Memory.insert, Memory.read_cons, eq_comm]
  | cons d m ih =>
    have hd : d.1 ≠ a := h d (by simp)
    have hm := ih (fun c hc => h c (by simp [hc]))
    simp only [Memory.insert]
    split
    · by_cases hb : b = a
      · simp [Memory.read_cons, hb]
      · simp [Memory.read_cons, hb, Ne.symm hb]
    · simp only [Memory.read_cons, hm]
      by_cases hb : b = a
      · simp [hb, hd]
      · simp [hb]

theorem Memory.mem_erase {m : Memory} {a : Nat} {c : Host.Cell} : c ∈ m.erase a ↔ c ∈ m ∧ c.1 ≠ a := by
  simp [Memory.erase]

/-- A write gives its byte back and leaves every other address alone, whatever the list (R58). -/
theorem Memory.read_write (m : Memory) (a b : Nat) (v : Byte) :
    (m.write a v).read b = if b = a then v else m.read b := by
  unfold Memory.write
  split
  · next hv =>
    rw [Memory.read_erase]
    by_cases hb : b = a
    · simp [hb, hv]
    · simp [hb]
  · rw [Memory.read_insert _ _ _ _ (fun c hc => (Memory.mem_erase.mp hc).2), Memory.read_erase]
    by_cases hb : b = a <;> simp [hb]

@[simp] theorem Memory.read_write_same (m : Memory) (a : Nat) (v : Byte) : (m.write a v).read a = v := by
  simp [Memory.read_write]

theorem Memory.read_write_other (m : Memory) {a b : Nat} (v : Byte) (h : b ≠ a) :
    (m.write a v).read b = m.read b := by
  simp [Memory.read_write, h]

theorem Memory.mem_insert {m : Memory} {c d : Host.Cell} : d ∈ m.insert c ↔ d = c ∨ d ∈ m := by
  induction m with
  | nil => simp [Memory.insert]
  | cons e m ih =>
    simp only [Memory.insert]
    split
    · simp
    · simp [ih, or_left_comm]

theorem Memory.wf_erase {m : Memory} (h : m.wf) (a : Nat) : (m.erase a).wf :=
  ⟨h.1.filter _, fun c hc => h.2 c (Memory.mem_erase.mp hc).1⟩

theorem Memory.pairwise_insert {m : Memory} {c : Host.Cell} (h : m.Pairwise (fun c d => c.1 < d.1))
    (hc : ∀ d ∈ m, d.1 ≠ c.1) : (m.insert c).Pairwise (fun c d => c.1 < d.1) := by
  induction m with
  | nil => simp [Memory.insert]
  | cons e m ih =>
    obtain ⟨he, hm⟩ := List.pairwise_cons.mp h
    simp only [Memory.insert]
    split
    · next hlt =>
      refine List.pairwise_cons.mpr ⟨fun d hd => ?_, h⟩
      rcases List.mem_cons.mp hd with rfl | hd
      · exact hlt
      · exact Nat.lt_trans hlt (he d hd)
    · next hge =>
      refine List.pairwise_cons.mpr ⟨fun d hd => ?_, ih hm (fun d hd => hc d (by simp [hd]))⟩
      rcases Memory.mem_insert.mp hd with rfl | hd
      · have := hc e (by simp)
        omega
      · exact he d hd

/-- A write inside the address space keeps the canonical form. -/
theorem Memory.wf_write {m : Memory} (h : m.wf) {a : Nat} (ha : a < 4096) (v : Byte) : (m.write a v).wf := by
  unfold Memory.write
  split
  · exact Memory.wf_erase h a
  · next hv =>
    have he := Memory.wf_erase h a
    refine ⟨Memory.pairwise_insert he.1 (fun d hd => (Memory.mem_erase.mp hd).2), fun c hc => ?_⟩
    rcases Memory.mem_insert.mp hc with rfl | hc
    · exact ⟨ha, hv⟩
    · exact he.2 c hc

theorem Memory.wf_writeBlock {m : Memory} (h : m.wf) (bs : List Byte) {a : Nat} (ha : a + bs.length ≤ 4096) :
    (m.writeBlock a bs).wf := by
  induction bs generalizing m a with
  | nil => exact h
  | cons b bs ih =>
    simp only [List.length_cons] at ha
    exact ih (Memory.wf_write h (by omega) b) (by omega)

/-- Outside the written range nothing changes. -/
theorem Memory.read_writeBlock_outside (m : Memory) (bs : List Byte) {a b : Nat} (h : b < a ∨ a + bs.length ≤ b) :
    (m.writeBlock a bs).read b = m.read b := by
  induction bs generalizing m a with
  | nil => rfl
  | cons c bs ih =>
    simp only [List.length_cons] at h
    rw [Memory.writeBlock, ih _ (by omega), Memory.read_write_other _ _ (by omega)]

/-- Inside the written range the byte of the list is read (R55). -/
theorem Memory.read_writeBlock_inside (m : Memory) (bs : List Byte) (a : Nat) {k : Nat} (h : k < bs.length) :
    (m.writeBlock a bs).read (a + k) = bs[k] := by
  induction bs generalizing m a k with
  | nil => simp at h
  | cons c bs ih =>
    cases k with
    | zero =>
      simp only [Memory.writeBlock, Nat.add_zero, List.getElem_cons_zero]
      rw [Memory.read_writeBlock_outside _ _ (by omega)]
      simp
    | succ k =>
      simp only [Memory.writeBlock, List.getElem_cons_succ]
      have := ih (m.write a c) (a + 1) (k := k) (by simpa using h)
      rwa [show a + 1 + k = a + (k + 1) by omega] at this

@[simp] theorem Memory.length_readBlock (m : Memory) (a n : Nat) : (m.readBlock a n).length = n := by
  simp [Memory.readBlock]

@[simp] theorem Memory.getElem_readBlock (m : Memory) (a n k : Nat) (h : k < (m.readBlock a n).length) :
    (m.readBlock a n)[k] = m.read (a + k) := by
  simp [Memory.readBlock]

end Sys2Proof.Machine
end

