-- ==== Sys2Proof/Laws/State.lean ====
section
/-! SUPPORT. One lemma per field of `State` per update, so that no proof unfolds a record update. -/

namespace Sys2Proof.Machine

variable (s : State)

@[simp] theorem State.V_setReg (x : RegIdx) (v : Byte) : (s.setReg x v).V = s.V.set x.val v := rfl
@[simp] theorem State.I_setReg (x : RegIdx) (v : Byte) : (s.setReg x v).I = s.I := rfl
@[simp] theorem State.pc_setReg (x : RegIdx) (v : Byte) : (s.setReg x v).pc = s.pc := rfl
@[simp] theorem State.stack_setReg (x : RegIdx) (v : Byte) : (s.setReg x v).stack = s.stack := rfl
@[simp] theorem State.sp_setReg (x : RegIdx) (v : Byte) : (s.setReg x v).sp = s.sp := rfl
@[simp] theorem State.keyState_setReg (x : RegIdx) (v : Byte) : (s.setReg x v).keyState = s.keyState := rfl
@[simp] theorem State.key_setReg (x : RegIdx) (v : Byte) : (s.setReg x v).key = s.key := rfl
@[simp] theorem State.mem_setReg (x : RegIdx) (v : Byte) : (s.setReg x v).mem = s.mem := rfl
@[simp] theorem State.block_setReg (x : RegIdx) (v : Byte) : (s.setReg x v).block = s.block := rfl
@[simp] theorem State.draws_setReg (x : RegIdx) (v : Byte) : (s.setReg x v).draws = s.draws := rfl

@[simp] theorem State.V_setRegs (v : Vector Byte 16) : (s.setRegs v).V = v := rfl
@[simp] theorem State.I_setRegs (v : Vector Byte 16) : (s.setRegs v).I = s.I := rfl
@[simp] theorem State.pc_setRegs (v : Vector Byte 16) : (s.setRegs v).pc = s.pc := rfl
@[simp] theorem State.stack_setRegs (v : Vector Byte 16) : (s.setRegs v).stack = s.stack := rfl
@[simp] theorem State.sp_setRegs (v : Vector Byte 16) : (s.setRegs v).sp = s.sp := rfl
@[simp] theorem State.keyState_setRegs (v : Vector Byte 16) : (s.setRegs v).keyState = s.keyState := rfl
@[simp] theorem State.key_setRegs (v : Vector Byte 16) : (s.setRegs v).key = s.key := rfl
@[simp] theorem State.mem_setRegs (v : Vector Byte 16) : (s.setRegs v).mem = s.mem := rfl
@[simp] theorem State.block_setRegs (v : Vector Byte 16) : (s.setRegs v).block = s.block := rfl
@[simp] theorem State.draws_setRegs (v : Vector Byte 16) : (s.setRegs v).draws = s.draws := rfl

@[simp] theorem State.V_setPc (a : Word) : (s.setPc a).V = s.V := rfl
@[simp] theorem State.I_setPc (a : Word) : (s.setPc a).I = s.I := rfl
@[simp] theorem State.pc_setPc (a : Word) : (s.setPc a).pc = a := rfl
@[simp] theorem State.stack_setPc (a : Word) : (s.setPc a).stack = s.stack := rfl
@[simp] theorem State.sp_setPc (a : Word) : (s.setPc a).sp = s.sp := rfl
@[simp] theorem State.keyState_setPc (a : Word) : (s.setPc a).keyState = s.keyState := rfl
@[simp] theorem State.key_setPc (a : Word) : (s.setPc a).key = s.key := rfl
@[simp] theorem State.mem_setPc (a : Word) : (s.setPc a).mem = s.mem := rfl
@[simp] theorem State.block_setPc (a : Word) : (s.setPc a).block = s.block := rfl
@[simp] theorem State.draws_setPc (a : Word) : (s.setPc a).draws = s.draws := rfl

@[simp] theorem State.V_advance : (s.advance).V = s.V := rfl
@[simp] theorem State.I_advance : (s.advance).I = s.I := rfl
@[simp] theorem State.pc_advance : (s.advance).pc = s.pc + 2 := rfl
@[simp] theorem State.stack_advance : (s.advance).stack = s.stack := rfl
@[simp] theorem State.sp_advance : (s.advance).sp = s.sp := rfl
@[simp] theorem State.keyState_advance : (s.advance).keyState = s.keyState := rfl
@[simp] theorem State.key_advance : (s.advance).key = s.key := rfl
@[simp] theorem State.mem_advance : (s.advance).mem = s.mem := rfl
@[simp] theorem State.block_advance : (s.advance).block = s.block := rfl
@[simp] theorem State.draws_advance : (s.advance).draws = s.draws := rfl

@[simp] theorem State.V_skipIf (c : Bool) : (s.skipIf c).V = s.V := rfl
@[simp] theorem State.I_skipIf (c : Bool) : (s.skipIf c).I = s.I := rfl
@[simp] theorem State.pc_skipIf (c : Bool) : (s.skipIf c).pc = if c then s.pc + 4 else s.pc + 2 := rfl
@[simp] theorem State.stack_skipIf (c : Bool) : (s.skipIf c).stack = s.stack := rfl
@[simp] theorem State.sp_skipIf (c : Bool) : (s.skipIf c).sp = s.sp := rfl
@[simp] theorem State.keyState_skipIf (c : Bool) : (s.skipIf c).keyState = s.keyState := rfl
@[simp] theorem State.key_skipIf (c : Bool) : (s.skipIf c).key = s.key := rfl
@[simp] theorem State.mem_skipIf (c : Bool) : (s.skipIf c).mem = s.mem := rfl
@[simp] theorem State.block_skipIf (c : Bool) : (s.skipIf c).block = s.block := rfl
@[simp] theorem State.draws_skipIf (c : Bool) : (s.skipIf c).draws = s.draws := rfl

@[simp] theorem State.V_setI (a : Word) : (s.setI a).V = s.V := rfl
@[simp] theorem State.I_setI (a : Word) : (s.setI a).I = a := rfl
@[simp] theorem State.pc_setI (a : Word) : (s.setI a).pc = s.pc := rfl
@[simp] theorem State.stack_setI (a : Word) : (s.setI a).stack = s.stack := rfl
@[simp] theorem State.sp_setI (a : Word) : (s.setI a).sp = s.sp := rfl
@[simp] theorem State.keyState_setI (a : Word) : (s.setI a).keyState = s.keyState := rfl
@[simp] theorem State.key_setI (a : Word) : (s.setI a).key = s.key := rfl
@[simp] theorem State.mem_setI (a : Word) : (s.setI a).mem = s.mem := rfl
@[simp] theorem State.block_setI (a : Word) : (s.setI a).block = s.block := rfl
@[simp] theorem State.draws_setI (a : Word) : (s.setI a).draws = s.draws := rfl

@[simp] theorem State.V_setMem (m : Memory) : (s.setMem m).V = s.V := rfl
@[simp] theorem State.I_setMem (m : Memory) : (s.setMem m).I = s.I := rfl
@[simp] theorem State.pc_setMem (m : Memory) : (s.setMem m).pc = s.pc := rfl
@[simp] theorem State.stack_setMem (m : Memory) : (s.setMem m).stack = s.stack := rfl
@[simp] theorem State.sp_setMem (m : Memory) : (s.setMem m).sp = s.sp := rfl
@[simp] theorem State.keyState_setMem (m : Memory) : (s.setMem m).keyState = s.keyState := rfl
@[simp] theorem State.key_setMem (m : Memory) : (s.setMem m).key = s.key := rfl
@[simp] theorem State.mem_setMem (m : Memory) : (s.setMem m).mem = m := rfl
@[simp] theorem State.block_setMem (m : Memory) : (s.setMem m).block = s.block := rfl
@[simp] theorem State.draws_setMem (m : Memory) : (s.setMem m).draws = s.draws := rfl

@[simp] theorem State.V_setBlock (b : Block) : (s.setBlock b).V = s.V := rfl
@[simp] theorem State.I_setBlock (b : Block) : (s.setBlock b).I = s.I := rfl
@[simp] theorem State.pc_setBlock (b : Block) : (s.setBlock b).pc = s.pc := rfl
@[simp] theorem State.stack_setBlock (b : Block) : (s.setBlock b).stack = s.stack := rfl
@[simp] theorem State.sp_setBlock (b : Block) : (s.setBlock b).sp = s.sp := rfl
@[simp] theorem State.keyState_setBlock (b : Block) : (s.setBlock b).keyState = s.keyState := rfl
@[simp] theorem State.key_setBlock (b : Block) : (s.setBlock b).key = s.key := rfl
@[simp] theorem State.mem_setBlock (b : Block) : (s.setBlock b).mem = s.mem := rfl
@[simp] theorem State.block_setBlock (b : Block) : (s.setBlock b).block = b := rfl
@[simp] theorem State.draws_setBlock (b : Block) : (s.setBlock b).draws = s.draws := rfl

@[simp] theorem State.V_drawn : (s.drawn).V = s.V := rfl
@[simp] theorem State.I_drawn : (s.drawn).I = s.I := rfl
@[simp] theorem State.pc_drawn : (s.drawn).pc = s.pc := rfl
@[simp] theorem State.stack_drawn : (s.drawn).stack = s.stack := rfl
@[simp] theorem State.sp_drawn : (s.drawn).sp = s.sp := rfl
@[simp] theorem State.keyState_drawn : (s.drawn).keyState = s.keyState := rfl
@[simp] theorem State.key_drawn : (s.drawn).key = s.key := rfl
@[simp] theorem State.mem_drawn : (s.drawn).mem = s.mem := rfl
@[simp] theorem State.block_drawn : (s.drawn).block = s.block := rfl
@[simp] theorem State.draws_drawn : (s.drawn).draws = s.draws + 1 := rfl

@[simp] theorem State.V_writeWithFlag (x : RegIdx) (v f : Byte) : (s.writeWithFlag x v f).V = (s.V.set x.val v).set VF.val f := rfl
@[simp] theorem State.I_writeWithFlag (x : RegIdx) (v f : Byte) : (s.writeWithFlag x v f).I = s.I := rfl
@[simp] theorem State.pc_writeWithFlag (x : RegIdx) (v f : Byte) : (s.writeWithFlag x v f).pc = s.pc + 2 := rfl
@[simp] theorem State.stack_writeWithFlag (x : RegIdx) (v f : Byte) : (s.writeWithFlag x v f).stack = s.stack := rfl
@[simp] theorem State.sp_writeWithFlag (x : RegIdx) (v f : Byte) : (s.writeWithFlag x v f).sp = s.sp := rfl
@[simp] theorem State.keyState_writeWithFlag (x : RegIdx) (v f : Byte) : (s.writeWithFlag x v f).keyState = s.keyState := rfl
@[simp] theorem State.key_writeWithFlag (x : RegIdx) (v f : Byte) : (s.writeWithFlag x v f).key = s.key := rfl
@[simp] theorem State.mem_writeWithFlag (x : RegIdx) (v f : Byte) : (s.writeWithFlag x v f).mem = s.mem := rfl
@[simp] theorem State.block_writeWithFlag (x : RegIdx) (v f : Byte) : (s.writeWithFlag x v f).block = s.block := rfl
@[simp] theorem State.draws_writeWithFlag (x : RegIdx) (v f : Byte) : (s.writeWithFlag x v f).draws = s.draws := rfl

@[simp] theorem State.V_beginStep : (s.beginStep).V = s.V := rfl
@[simp] theorem State.I_beginStep : (s.beginStep).I = s.I := rfl
@[simp] theorem State.pc_beginStep : (s.beginStep).pc = s.pc := rfl
@[simp] theorem State.stack_beginStep : (s.beginStep).stack = s.stack := rfl
@[simp] theorem State.sp_beginStep : (s.beginStep).sp = s.sp := rfl
@[simp] theorem State.keyState_beginStep : (s.beginStep).keyState = s.keyState := rfl
@[simp] theorem State.key_beginStep : (s.beginStep).key = some s.keyState := rfl
@[simp] theorem State.mem_beginStep : (s.beginStep).mem = s.mem := rfl
@[simp] theorem State.block_beginStep : (s.beginStep).block = s.block := rfl
@[simp] theorem State.draws_beginStep : (s.beginStep).draws = s.draws := rfl

@[simp] theorem State.V_endStep : (s.endStep).V = s.V := rfl
@[simp] theorem State.I_endStep : (s.endStep).I = s.I := rfl
@[simp] theorem State.pc_endStep : (s.endStep).pc = s.pc := rfl
@[simp] theorem State.stack_endStep : (s.endStep).stack = s.stack := rfl
@[simp] theorem State.sp_endStep : (s.endStep).sp = s.sp := rfl
@[simp] theorem State.keyState_endStep : (s.endStep).keyState = s.keyState := rfl
@[simp] theorem State.key_endStep : (s.endStep).key = none := rfl
@[simp] theorem State.mem_endStep : (s.endStep).mem = s.mem := rfl
@[simp] theorem State.block_endStep : (s.endStep).block = s.block.tick := rfl
@[simp] theorem State.draws_endStep : (s.endStep).draws = s.draws := rfl

@[simp] theorem State.V_setKey (k : KeyIdx) (p : Bool) : (s.setKey k p).V = s.V := rfl
@[simp] theorem State.I_setKey (k : KeyIdx) (p : Bool) : (s.setKey k p).I = s.I := rfl
@[simp] theorem State.pc_setKey (k : KeyIdx) (p : Bool) : (s.setKey k p).pc = s.pc := rfl
@[simp] theorem State.stack_setKey (k : KeyIdx) (p : Bool) : (s.setKey k p).stack = s.stack := rfl
@[simp] theorem State.sp_setKey (k : KeyIdx) (p : Bool) : (s.setKey k p).sp = s.sp := rfl
@[simp] theorem State.keyState_setKey (k : KeyIdx) (p : Bool) : (s.setKey k p).keyState = s.keyState.set k.val p := rfl
@[simp] theorem State.key_setKey (k : KeyIdx) (p : Bool) : (s.setKey k p).key = s.key := rfl
@[simp] theorem State.mem_setKey (k : KeyIdx) (p : Bool) : (s.setKey k p).mem = s.mem := rfl
@[simp] theorem State.block_setKey (k : KeyIdx) (p : Bool) : (s.setKey k p).block = s.block := rfl
@[simp] theorem State.draws_setKey (k : KeyIdx) (p : Bool) : (s.setKey k p).draws = s.draws := rfl

@[simp] theorem State.V_loaded (bs : List Byte) : (s.loaded bs).V = s.V := rfl
@[simp] theorem State.I_loaded (bs : List Byte) : (s.loaded bs).I = s.I := rfl
@[simp] theorem State.pc_loaded (bs : List Byte) : (s.loaded bs).pc = s.pc := rfl
@[simp] theorem State.stack_loaded (bs : List Byte) : (s.loaded bs).stack = s.stack := rfl
@[simp] theorem State.sp_loaded (bs : List Byte) : (s.loaded bs).sp = s.sp := rfl
@[simp] theorem State.keyState_loaded (bs : List Byte) : (s.loaded bs).keyState = s.keyState := rfl
@[simp] theorem State.key_loaded (bs : List Byte) : (s.loaded bs).key = s.key := rfl
@[simp] theorem State.mem_loaded (bs : List Byte) : (s.loaded bs).mem = s.mem.writeBlock Config.progBase bs := rfl
@[simp] theorem State.block_loaded (bs : List Byte) : (s.loaded bs).block = s.block := rfl
@[simp] theorem State.draws_loaded (bs : List Byte) : (s.loaded bs).draws = s.draws := rfl

variable (b : Block)

@[simp] theorem Block.FB_clear : (b.clear).FB = Framebuffer.blank := rfl
@[simp] theorem Block.CHG_clear : (b.clear).CHG = true := rfl
@[simp] theorem Block.DT_clear : (b.clear).DT = b.DT := rfl
@[simp] theorem Block.ST_clear : (b.clear).ST = b.ST := rfl

@[simp] theorem Block.FB_dtWrite (v : Byte) : (b.dtWrite v).FB = b.FB := rfl
@[simp] theorem Block.CHG_dtWrite (v : Byte) : (b.dtWrite v).CHG = b.CHG := rfl
@[simp] theorem Block.DT_dtWrite (v : Byte) : (b.dtWrite v).DT = v := rfl
@[simp] theorem Block.ST_dtWrite (v : Byte) : (b.dtWrite v).ST = b.ST := rfl

@[simp] theorem Block.FB_stWrite (v : Byte) : (b.stWrite v).FB = b.FB := rfl
@[simp] theorem Block.CHG_stWrite (v : Byte) : (b.stWrite v).CHG = b.CHG := rfl
@[simp] theorem Block.DT_stWrite (v : Byte) : (b.stWrite v).DT = b.DT := rfl
@[simp] theorem Block.ST_stWrite (v : Byte) : (b.stWrite v).ST = v := rfl

@[simp] theorem Block.FB_tick : (b.tick).FB = b.FB := rfl
@[simp] theorem Block.CHG_tick : (b.tick).CHG = b.CHG := rfl
@[simp] theorem Block.DT_tick : (b.tick).DT = countDown b.DT := rfl
@[simp] theorem Block.ST_tick : (b.tick).ST = countDown b.ST := rfl

@[simp] theorem Block.FB_chgClear : (b.chgClear).FB = b.FB := rfl
@[simp] theorem Block.CHG_chgClear : (b.chgClear).CHG = false := rfl
@[simp] theorem Block.DT_chgClear : (b.chgClear).DT = b.DT := rfl
@[simp] theorem Block.ST_chgClear : (b.chgClear).ST = b.ST := rfl

@[simp] theorem Block.DT_draw (x0 y0 : Byte) (rows : List Byte) : ((b.draw x0 y0 rows).1).DT = b.DT := rfl
@[simp] theorem Block.ST_draw (x0 y0 : Byte) (rows : List Byte) : ((b.draw x0 y0 rows).1).ST = b.ST := rfl

@[simp] theorem Block.dtRead_eq : b.dtRead = b.DT := rfl
@[simp] theorem Block.chgRead_eq : b.chgRead = b.CHG := rfl
@[simp] theorem Block.dtReadHost_eq : b.dtReadHost = b.DT := rfl
@[simp] theorem Block.stRead_eq : b.stRead = b.ST := rfl

end Sys2Proof.Machine
end

