-- ==== Sys2Proof/Laws/Ops.lean ====
section
/-! SUPPORT. What each shared operation of Machine/Ops.lean, Operands.lean and Flags.lean can do, said once. -/

namespace Sys2Proof.Machine

variable (s : State)

/-! ### Registers -/

@[simp] theorem State.reg_setReg (x y : RegIdx) (v : Byte) : (s.setReg x v).reg y = if y = x then v else s.reg y := by
  simp only [State.reg, State.V_setReg, Fin.getElem_fin, Vector.getElem_set, Fin.ext_iff, eq_comm]

@[simp] theorem State.reg_setPc (a : Word) (y : RegIdx) : (s.setPc a).reg y = s.reg y := rfl
@[simp] theorem State.reg_advance (y : RegIdx) : s.advance.reg y = s.reg y := rfl
@[simp] theorem State.reg_skipIf (c : Bool) (y : RegIdx) : (s.skipIf c).reg y = s.reg y := rfl
@[simp] theorem State.reg_setI (a : Word) (y : RegIdx) : (s.setI a).reg y = s.reg y := rfl
@[simp] theorem State.reg_setMem (m : Memory) (y : RegIdx) : (s.setMem m).reg y = s.reg y := rfl
@[simp] theorem State.reg_setBlock (b : Block) (y : RegIdx) : (s.setBlock b).reg y = s.reg y := rfl
@[simp] theorem State.reg_drawn (y : RegIdx) : s.drawn.reg y = s.reg y := rfl
@[simp] theorem State.reg_beginStep (y : RegIdx) : s.beginStep.reg y = s.reg y := rfl
@[simp] theorem State.reg_endStep (y : RegIdx) : s.endStep.reg y = s.reg y := rfl
@[simp] theorem State.reg_setRegs (v : Vector Byte 16) (y : RegIdx) : (s.setRegs v).reg y = v[y] := rfl

@[simp] theorem State.reg_writeWithFlag (x y : RegIdx) (v f : Byte) :
    (s.writeWithFlag x v f).reg y = if y = VF then f else if y = x then v else s.reg y := by
  simp [State.writeWithFlag]

/-- A block load writes the registers below the count and no other (R219). -/
theorem getElem_loadBlock (m : Memory) (base n : Nat) (v : Vector Byte 16) (r : RegIdx) :
    (loadBlock m base n v)[r] = if r.val < n then m.read (base + r.val) else v[r] := by
  induction n with
  | zero => simp [loadBlock]
  | succ n ih =>
    simp only [Fin.getElem_fin] at ih
    simp only [loadBlock, Fin.getElem_fin, Vector.getElem_setIfInBounds, ih]
    by_cases h : n = r.val
    · simp [h]
    · by_cases h' : r.val < n
      · simp [h, h', Nat.lt_succ_of_lt h']
      · simp [h, h', show ¬ r.val < n + 1 by omega]

@[simp] theorem State.length_regsUpTo (x : RegIdx) : (s.regsUpTo x).length = x.val + 1 := by
  simp only [State.regsUpTo, List.length_take, Vector.length_toList]; omega

theorem State.getElem_regsUpTo (x : RegIdx) (k : Nat) (h : k < (s.regsUpTo x).length) :
    (s.regsUpTo x)[k] = s.reg ⟨k, by rw [State.length_regsUpTo] at h; omega⟩ := by
  simp [State.regsUpTo, State.reg]

/-! ### Memory ranges -/

@[simp] theorem State.indexAddr_eq (i : Nat) : s.indexAddr i = s.I.toNat + i := rfl

theorem offending_eq_none {first count : Nat} : offending first count = none ↔ count = 0 ∨ first + count ≤ 4096 := by
  unfold offending; split <;> simp_all

theorem offending_eq_some {first count a : Nat} :
    offending first count = some a ↔ count ≠ 0 ∧ 4096 < first + count ∧ a = max first 4096 := by
  unfold offending
  split
  · next h => simp only [false_iff, reduceCtorEq]; omega
  · next h =>
    simp only [Option.some.injEq]
    constructor
    · rintro rfl
      refine ⟨by omega, by omega, rfl⟩
    · rintro ⟨-, -, rfl⟩
      rfl

theorem withRange_ok {first count : Nat} (h : count = 0 ∨ first + count ≤ 4096) (go) : withRange first count go = go := by
  simp [withRange, offending_eq_none.mpr h]

theorem withRange_raise {first count : Nat} (h : count ≠ 0 ∧ 4096 < first + count) (go) :
    withRange first count go = .fault (.outOfRangeAccess (max first 4096)) := by
  simp [withRange, offending_eq_some.mpr ⟨h.1, h.2, rfl⟩, raise]

/-- All a range check can do: go on with the range inside the address space, or raise with the lowest offending address. -/
theorem withRange_cases (first count : Nat) (go) :
    (count = 0 ∨ first + count ≤ 4096) ∧ withRange first count go = go ∨
      (count ≠ 0 ∧ 4096 < first + count) ∧ withRange first count go = .fault (.outOfRangeAccess (max first 4096)) := by
  by_cases h : count = 0 ∨ first + count ≤ 4096
  · exact .inl ⟨h, withRange_ok h go⟩
  · exact .inr ⟨by omega, withRange_raise (by omega) go⟩

@[simp] theorem State.length_spriteRows (n : Nat) : (s.spriteRows n).length = n := by simp [State.spriteRows]

theorem State.getElem_spriteRows (n k : Nat) (h : k < (s.spriteRows n).length) :
    (s.spriteRows n)[k] = s.mem.read (s.I.toNat + k) := by
  simp [State.spriteRows]

@[simp] theorem length_bcdDigits (v : Byte) : (bcdDigits v).length = 3 := rfl

/-! ### Call stack -/

/-- All a push can do (R105). -/
theorem State.push_cases (a : Word) :
    (∃ (h : s.sp.val < 16) (t : State), s.push a = some t ∧ t.sp.val = s.sp.val + 1 ∧ t.stack = s.stack.set s.sp.val a h ∧
        t = { s with stack := t.stack, sp := t.sp }) ∨
      s.sp.val = 16 ∧ s.push a = none := by
  by_cases h : s.sp.val < 16
  · exact .inl ⟨h, _, by simp only [State.push, h, dite_true]; rfl, rfl, rfl, rfl⟩
  · exact .inr ⟨by omega, by simp [State.push, h]⟩

/-- All a pop can do (R103). -/
theorem State.pop_cases :
    (∃ (h : 0 < s.sp.val) (t : State), s.pop = some (s.stack[s.sp.val - 1]'(by omega), t) ∧ t.sp.val = s.sp.val - 1 ∧
        t = { s with sp := t.sp }) ∨
      s.sp.val = 0 ∧ s.pop = none := by
  by_cases h : s.sp.val = 0
  · exact .inr ⟨h, by simp [State.pop, h]⟩
  · exact .inl ⟨by omega, _, by simp only [State.pop, h, dite_false]; rfl, rfl, rfl⟩

/-! ### Keypad -/

@[simp] theorem State.keyAt_beginStep (k : KeyIdx) : s.beginStep.keyAt k = s.keyState[k] := rfl

theorem State.keyAt_of_none (h : s.key = none) (k : KeyIdx) : s.keyAt k = s.keyState[k] := by
  simp [State.keyAt, h]

theorem State.anyKey_iff : s.anyKey = true ↔ ∃ k : KeyIdx, s.keyAt k = true := by
  simp [State.anyKey]

theorem withKey_ok {k : Byte} (h : k.toNat < 16) (go) : withKey k s go = go (s.keyAt ⟨k.toNat, h⟩) := by
  simp [withKey, h]

theorem withKey_raise {k : Byte} (h : 16 ≤ k.toNat) (go) : withKey k s go = .fault (.outOfRangeAccess k.toNat) := by
  simp [withKey, Nat.not_lt.mpr h, raise]

/-! ### Fetch -/

theorem State.fetch_ok (h : s.pc.toNat ≤ 4094) :
    s.fetch = .ok (joinBytes (s.mem.read s.pc.toNat) (s.mem.read (s.pc.toNat + 1))) := by
  simp [State.fetch, offending_eq_none.mpr (Or.inr (by omega : s.pc.toNat + 2 ≤ 4096))]

theorem State.fetch_error (h : 4094 < s.pc.toNat) : s.fetch = .error (.outOfRangeAccess (max s.pc.toNat 4096)) := by
  simp [State.fetch, offending_eq_some.mpr ⟨by decide, (by omega : 4096 < s.pc.toNat + 2), rfl⟩]

theorem State.fetch_eq_ok_iff {w : Word} :
    s.fetch = .ok w ↔ s.pc.toNat ≤ 4094 ∧ w = joinBytes (s.mem.read s.pc.toNat) (s.mem.read (s.pc.toNat + 1)) := by
  by_cases h : s.pc.toNat ≤ 4094
  · simp [s.fetch_ok h, h, eq_comm]
  · simp [s.fetch_error (Nat.lt_of_not_le h), h]

@[simp] theorem State.fetch_beginStep : s.beginStep.fetch = s.fetch := rfl

/-! ### Flags -/

theorem toNat_sum8 (a b : Byte) : (sum8 a b).toNat = (a.toNat + b.toNat) % 256 := by
  simp [sum8]

theorem toNat_diff8 (a b : Byte) : (diff8 a b).toNat = (a.toNat + 256 - b.toNat) % 256 := by
  have := a.isLt
  have := b.isLt
  simp only [diff8, BitVec.toNat_ofInt]
  omega

@[simp] theorem flagByte_true : flagByte true = 1 := rfl
@[simp] theorem flagByte_false : flagByte false = 0 := rfl

end Sys2Proof.Machine
end

