-- ==== Sys2Proof/Laws/Draw.lean ====
section
/-! SUPPORT. What a run of columns and a run of rows of a sprite draw does to the grid, the changed flag and the collision
(43_sprite_framebuffer.md R152 to R164). -/

namespace Sys2Proof.Machine

variable (x0 y0 : Byte)

/-- Eight (up to 64) columns land in different places (R164). -/
theorem wrapX_inj {c c' : Nat} (hc : c < 64) (hc' : c' < 64) (h : wrapX x0 c = wrapX x0 c') : c = c' := by
  have := congrArg Fin.val h
  simp only [toNat_wrapX] at this
  omega

/-- Rows less than 32 apart land in different places (R164). -/
theorem wrapY_inj {r r' : Nat} (hr : r ≤ r') (hr' : r' < r + 32) (h : wrapY y0 r = wrapY y0 r') : r = r' := by
  have := congrArg Fin.val h
  simp only [toNat_wrapY] at this
  omega

/-- The columns `cs` of row `r`. -/
def Drawing.columns (r : Nat) (row : Byte) (cs : List Nat) (d : Drawing) : Drawing :=
  cs.foldl (fun d c => Drawing.pixel x0 y0 r c row d) d

theorem Drawing.row_eq_columns (r : Nat) (row : Byte) (d : Drawing) :
    Drawing.row x0 y0 r row d = Drawing.columns x0 y0 r row (List.range 8) d := rfl

theorem Drawing.columns_chg (r : Nat) (row : Byte) (cs : List Nat) (d : Drawing) :
    (Drawing.columns x0 y0 r row cs d).chg = true ↔ d.chg = true ∨ ∃ c ∈ cs, spriteBit row c = true := by
  induction cs generalizing d with
  | nil => simp [Drawing.columns]
  | cons c cs ih =>
    have := ih (Drawing.pixel x0 y0 r c row d)
    simp only [Drawing.columns, List.foldl_cons] at this ⊢
    rw [this]
    simp [Drawing.pixel, or_assoc]

/-- A pixel is inverted exactly when one of the columns with a set bit lands on it. -/
theorem Drawing.columns_pixel (r : Nat) (row : Byte) (cs : List Nat) (hn : cs.Nodup) (hc : ∀ c ∈ cs, c < 64) (d : Drawing)
    (qx : PixX) (qy : PixY) :
    ((Drawing.columns x0 y0 r row cs d).fb.pixel qx qy = true) ↔
      ((d.fb.pixel qx qy = true) ↔ ¬ ∃ c ∈ cs, spriteBit row c = true ∧ wrapX x0 c = qx ∧ wrapY y0 r = qy) := by
  induction cs generalizing d with
  | nil => simp [Drawing.columns]
  | cons c cs ih =>
    obtain ⟨hnc, hn⟩ := List.nodup_cons.mp hn
    have ih := ih hn (fun c' h => hc c' (by simp [h])) (Drawing.pixel x0 y0 r c row d)
    simp only [Drawing.columns, List.foldl_cons] at ih ⊢
    rw [ih]
    simp only [Drawing.pixel, Framebuffer.pixel_xorPixel, List.exists_mem_cons_iff]
    by_cases hit : spriteBit row c = true ∧ wrapX x0 c = qx ∧ wrapY y0 r = qy
    · obtain ⟨hb, rfl, rfl⟩ := hit
      have hno : ¬ ∃ c' ∈ cs, spriteBit row c' = true ∧ wrapX x0 c' = wrapX x0 c ∧ True := by
        rintro ⟨c', hm, -, he, -⟩
        exact hnc (wrapX_inj x0 (hc c' (by simp [hm])) (hc c (by simp)) he ▸ hm)
      simp only [eq_false hno, hb, and_self, decide_true, Bool.and_self, Bool.xor_true, true_or, not_true_eq_false, not_false_eq_true,
        iff_true, iff_false, Bool.not_eq_true', Bool.not_eq_true]
    · have : (spriteBit row c && decide (qx = wrapX x0 c ∧ qy = wrapY y0 r)) = false := by
        rw [Bool.eq_false_iff]
        intro h
        simp only [Bool.and_eq_true, decide_eq_true_eq] at h
        exact hit ⟨h.1, h.2.1.symm, h.2.2.symm⟩
      simp only [this, Bool.xor_false, hit, false_or]

/-- A collision is noted exactly when one of the columns with a set bit lands on a pixel that was set (R160, R164). -/
theorem Drawing.columns_collision (r : Nat) (row : Byte) (cs : List Nat) (hn : cs.Nodup) (hc : ∀ c ∈ cs, c < 64) (d : Drawing) :
    (Drawing.columns x0 y0 r row cs d).collision = true ↔
      d.collision = true ∨ ∃ c ∈ cs, spriteBit row c = true ∧ d.fb.pixel (wrapX x0 c) (wrapY y0 r) = true := by
  induction cs generalizing d with
  | nil => simp [Drawing.columns]
  | cons c cs ih =>
    obtain ⟨hnc, hn⟩ := List.nodup_cons.mp hn
    have ih := ih hn (fun c' h => hc c' (by simp [h])) (Drawing.pixel x0 y0 r c row d)
    simp only [Drawing.columns, List.foldl_cons] at ih ⊢
    rw [ih]
    have hsame : ∀ c' ∈ cs, (Drawing.pixel x0 y0 r c row d).fb.pixel (wrapX x0 c') (wrapY y0 r) =
        d.fb.pixel (wrapX x0 c') (wrapY y0 r) := by
      intro c' hm
      have hne : wrapX x0 c' ≠ wrapX x0 c := fun he =>
        hnc (wrapX_inj x0 (hc c' (by simp [hm])) (hc c (by simp)) he ▸ hm)
      simp [Drawing.pixel, Framebuffer.pixel_xorPixel, hne]
    have hex : (∃ c' ∈ cs, spriteBit row c' = true ∧
          (Drawing.pixel x0 y0 r c row d).fb.pixel (wrapX x0 c') (wrapY y0 r) = true) ↔
        ∃ c' ∈ cs, spriteBit row c' = true ∧ d.fb.pixel (wrapX x0 c') (wrapY y0 r) = true := by
      constructor
      · rintro ⟨c', hm, hb, hp⟩
        exact ⟨c', hm, hb, hsame c' hm ▸ hp⟩
      · rintro ⟨c', hm, hb, hp⟩
        exact ⟨c', hm, hb, (hsame c' hm).symm ▸ hp⟩
    rw [hex, List.exists_mem_cons_iff]
    simp [Drawing.pixel, or_assoc]

/-- The sprite's pixel `(px, py)` of the rows from row `r` on: some row and column with a set bit lands there (R166's `S`). -/
def covers (r : Nat) (rows : List Byte) (px : PixX) (py : PixY) : Prop :=
  ∃ (k : Nat) (h : k < rows.length) (c : Nat), c < 8 ∧ spriteBit rows[k] c = true ∧ wrapX x0 c = px ∧ wrapY y0 (r + k) = py

theorem covers_nil (r : Nat) (px : PixX) (py : PixY) : ¬ covers x0 y0 r [] px py := by
  rintro ⟨k, h, -⟩
  simp at h

theorem covers_cons (r : Nat) (row : Byte) (rows : List Byte) (px : PixX) (py : PixY) :
    covers x0 y0 r (row :: rows) px py ↔
      (∃ c ∈ List.range 8, spriteBit row c = true ∧ wrapX x0 c = px ∧ wrapY y0 r = py) ∨ covers x0 y0 (r + 1) rows px py := by
  constructor
  · rintro ⟨k, h, c, hc, hb, hx, hy⟩
    cases k with
    | zero => exact .inl ⟨c, List.mem_range.mpr hc, hb, hx, hy⟩
    | succ k => exact .inr ⟨k, by simpa using h, c, hc, hb, hx, by rw [← hy]; congr 1; omega⟩
  · rintro (⟨c, hc, hb, hx, hy⟩ | ⟨k, h, c, hc, hb, hx, hy⟩)
    · exact ⟨0, by simp, c, List.mem_range.mp hc, hb, hx, hy⟩
    · exact ⟨k + 1, by simpa using h, c, hc, hb, hx, by rw [← hy]; congr 1; omega⟩

/-- Of two different rows no pixel is covered by both (R164). -/
theorem covers_row_disjoint {r : Nat} {rows : List Byte} (hl : rows.length < 32) {px : PixX} {py : PixY} (hy : wrapY y0 r = py) :
    ¬ covers x0 y0 (r + 1) rows px py := by
  rintro ⟨k, h, c, -, -, -, hy'⟩
  have := wrapY_inj y0 (by omega) (by omega) (hy.trans hy'.symm)
  omega

/-- The closed form of a draw on the grid (R166): a pixel is inverted exactly when the sprite covers it. -/
theorem Drawing.rows_pixel (rows : List Byte) (hl : rows.length ≤ 32) (r : Nat) (d : Drawing) (qx : PixX) (qy : PixY) :
    ((Drawing.rows x0 y0 r rows d).fb.pixel qx qy = true) ↔
      ((d.fb.pixel qx qy = true) ↔ ¬ covers x0 y0 r rows qx qy) := by
  induction rows generalizing r d with
  | nil => simp [Drawing.rows, covers_nil]
  | cons row rows ih =>
    simp only [List.length_cons] at hl
    rw [Drawing.rows, ih (by omega), Drawing.row_eq_columns,
      Drawing.columns_pixel x0 y0 r row _ List.nodup_range (fun c h => by have := List.mem_range.mp h; omega), covers_cons]
    by_cases hrow : ∃ c ∈ List.range 8, spriteBit row c = true ∧ wrapX x0 c = qx ∧ wrapY y0 r = qy
    · have := covers_row_disjoint (x0 := x0) y0 (rows := rows) (by omega) (px := qx) (hrow.elim fun _ h => h.2.2.2)
      simp only [eq_true hrow, eq_false this, not_true_eq_false, not_false_eq_true, iff_true, iff_false, true_or]
    · simp only [eq_false hrow, not_false_eq_true, iff_true, false_or]

/-- The changed flag after a draw (R159): set before, or some row has a set bit. -/
theorem Drawing.rows_chg (rows : List Byte) (r : Nat) (d : Drawing) :
    (Drawing.rows x0 y0 r rows d).chg = true ↔ d.chg = true ∨ ∃ px py, covers x0 y0 r rows px py := by
  induction rows generalizing r d with
  | nil => simp [Drawing.rows, covers_nil]
  | cons row rows ih =>
    rw [Drawing.rows, ih, Drawing.row_eq_columns, Drawing.columns_chg]
    simp only [covers_cons, exists_or, or_assoc]
    refine or_congr_right (or_congr_left ⟨?_, ?_⟩)
    · rintro ⟨c, hc, hb⟩
      exact ⟨_, _, c, hc, hb, rfl, rfl⟩
    · rintro ⟨_, _, c, hc, hb, -, -⟩
      exact ⟨c, hc, hb⟩

/-- The collision of a draw (R160, R166): noted before, or the sprite covers a pixel that was set. -/
theorem Drawing.rows_collision (rows : List Byte) (hl : rows.length ≤ 32) (r : Nat) (d : Drawing) :
    (Drawing.rows x0 y0 r rows d).collision = true ↔
      d.collision = true ∨ ∃ px py, covers x0 y0 r rows px py ∧ d.fb.pixel px py = true := by
  induction rows generalizing r d with
  | nil => simp [Drawing.rows, covers_nil]
  | cons row rows ih =>
    simp only [List.length_cons] at hl
    have hr : ∀ c ∈ List.range 8, c < 64 := fun c h => by have := List.mem_range.mp h; omega
    rw [Drawing.rows, ih (by omega), Drawing.row_eq_columns, Drawing.columns_collision x0 y0 r row _ List.nodup_range hr]
    have hlater : ∀ px py, covers x0 y0 (r + 1) rows px py →
        ((Drawing.columns x0 y0 r row (List.range 8) d).fb.pixel px py = true ↔ d.fb.pixel px py = true) := by
      intro px py hcov
      rw [Drawing.columns_pixel x0 y0 r row _ List.nodup_range hr]
      have : ¬ ∃ c ∈ List.range 8, spriteBit row c = true ∧ wrapX x0 c = px ∧ wrapY y0 r = py := fun ⟨_, _, _, _, hy⟩ =>
        covers_row_disjoint (x0 := x0) y0 (by omega) hy hcov
      simp only [eq_false this, not_false_eq_true, iff_true]
    simp only [covers_cons, or_and_right, exists_or, or_assoc]
    refine or_congr_right (or_congr ⟨?_, ?_⟩ ⟨?_, ?_⟩)
    · rintro ⟨c, hc, hb, hp⟩
      exact ⟨_, _, ⟨c, hc, hb, rfl, rfl⟩, hp⟩
    · rintro ⟨_, _, ⟨c, hc, hb, rfl, rfl⟩, hp⟩
      exact ⟨c, hc, hb, hp⟩
    · rintro ⟨px, py, hcov, hp⟩
      exact ⟨px, py, hcov, (hlater px py hcov).mp hp⟩
    · rintro ⟨px, py, hcov, hp⟩
      exact ⟨px, py, hcov, (hlater px py hcov).mpr hp⟩

/-- The claims' word for coverage is this file's, from row 0. -/
theorem spriteCovers_iff (rows : List Byte) (px : PixX) (py : PixY) :
    SpriteCovers x0 y0 rows px py ↔ covers x0 y0 0 rows px py := by
  constructor
  · rintro ⟨r, h, c, hc, hx, hy, hb⟩
    exact ⟨r, h, c, hc, hb, Fin.ext hx, Fin.ext (by simpa [toNat_wrapY] using hy)⟩
  · rintro ⟨r, h, c, hc, hb, hx, hy⟩
    refine ⟨r, h, c, hc, by rw [← hx, toNat_wrapX], ?_, hb⟩
    rw [← hy, toNat_wrapY, Nat.zero_add]

theorem State.drwCovers_iff (s : State) (x y : RegIdx) (n : Nat) (px : PixX) (py : PixY) :
    s.DrwCovers x y n px py ↔ SpriteCovers (s.reg x) (s.reg y) (s.spriteRows n) px py := by
  constructor
  · rintro ⟨r, c, hr, hc, hx, hy, hb⟩
    exact ⟨r, by simpa using hr, c, hc, hx, hy, by rwa [State.getElem_spriteRows]⟩
  · rintro ⟨r, h, c, hc, hx, hy, hb⟩
    exact ⟨r, c, by simpa using h, hc, hx, hy, by rwa [State.getElem_spriteRows] at hb⟩

end Sys2Proof.Machine
end

