-- ==== Sys2Proof/Laws/Exec.lean ====
section
/-! SUPPORT. All that each meaning with a check can answer, said once: the next state under its condition, or the error under the
other. Every other meaning answers `.next` of one expression by definition. -/

namespace Sys2Proof.Machine

variable (s : State)

theorem execRet_cases :
    (∃ h : 0 < s.sp.val, ∃ t, execRet s = .next t ∧ t.sp.val = s.sp.val - 1 ∧ t.pc = s.stack[s.sp.val - 1]'(by omega) + 2 ∧
        t = { s with sp := t.sp, pc := t.pc }) ∨
      s.sp.val = 0 ∧ execRet s = .fault .stackUnderflow := by
  rcases s.pop_cases with ⟨h, t, ht, hsp, hs⟩ | ⟨h, hn⟩
  · refine .inl ⟨h, t.setPc (s.stack[s.sp.val - 1] + 2), by rw [execRet, ht], hsp, rfl, ?_⟩
    exact congrArg (fun u => u.setPc (s.stack[s.sp.val - 1] + 2)) hs
  · exact .inr ⟨h, by rw [execRet, hn]; rfl⟩

theorem execCall_cases (nnn : BitVec 12) :
    (∃ h : s.sp.val < 16, ∃ t, execCall nnn s = .next t ∧ t.sp.val = s.sp.val + 1 ∧ t.stack = s.stack.set s.sp.val s.pc h ∧
        t.pc = addrOperand nnn ∧ t = { s with stack := t.stack, sp := t.sp, pc := t.pc }) ∨
      s.sp.val = 16 ∧ execCall nnn s = .fault .stackOverflow := by
  rcases s.push_cases s.pc with ⟨h, t, ht, hsp, hst, hs⟩ | ⟨h, hn⟩
  · refine .inl ⟨h, t.setPc (addrOperand nnn), by rw [execCall, ht], hsp, hst, rfl, ?_⟩
    exact congrArg (fun u => u.setPc (addrOperand nnn)) hs
  · exact .inr ⟨h, by rw [execCall, hn]; rfl⟩

theorem execDrw_cases (x y : RegIdx) (n : Nat) :
    (n = 0 ∨ s.I.toNat + n ≤ 4096) ∧
        execDrw x y n s = .next (((s.setBlock (s.block.draw (s.reg x) (s.reg y) (s.spriteRows n)).1).setReg VF
          (flagByte (s.block.draw (s.reg x) (s.reg y) (s.spriteRows n)).2)).advance) ∨
      (n ≠ 0 ∧ 4096 < s.I.toNat + n) ∧ execDrw x y n s = .fault (.outOfRangeAccess (max s.I.toNat 4096)) :=
  withRange_cases (s.indexAddr 0) n _

theorem execLdB_cases (x : RegIdx) :
    s.I.toNat + 3 ≤ 4096 ∧
        execLdB x s = .next (s.setMem (s.mem.writeBlock s.I.toNat (bcdDigits (s.reg x)))).advance ∨
      4096 < s.I.toNat + 3 ∧ execLdB x s = .fault (.outOfRangeAccess (max s.I.toNat 4096)) := by
  rcases withRange_cases (s.indexAddr 0) 3 (.next (s.setMem (s.mem.writeBlock (s.indexAddr 0) (bcdDigits (s.reg x)))).advance) with
    ⟨h, e⟩ | ⟨h, e⟩
  · exact .inl ⟨by simpa using h, e⟩
  · exact .inr ⟨by simpa using h, e⟩

theorem execStoreRegs_cases (x : RegIdx) :
    s.I.toNat + (x.val + 1) ≤ 4096 ∧
        execStoreRegs x s = .next (s.setMem (s.mem.writeBlock s.I.toNat (s.regsUpTo x))).advance ∨
      4096 < s.I.toNat + (x.val + 1) ∧ execStoreRegs x s = .fault (.outOfRangeAccess (max s.I.toNat 4096)) := by
  rcases withRange_cases (s.indexAddr 0) (x.val + 1) (.next (s.setMem (s.mem.writeBlock (s.indexAddr 0) (s.regsUpTo x))).advance) with
    ⟨h, e⟩ | ⟨h, e⟩
  · exact .inl ⟨by simpa using h, e⟩
  · exact .inr ⟨by simpa using h, e⟩

theorem execLoadRegs_cases (x : RegIdx) :
    s.I.toNat + (x.val + 1) ≤ 4096 ∧
        execLoadRegs x s = .next (s.setRegs (loadBlock s.mem s.I.toNat (x.val + 1) s.V)).advance ∨
      4096 < s.I.toNat + (x.val + 1) ∧ execLoadRegs x s = .fault (.outOfRangeAccess (max s.I.toNat 4096)) := by
  rcases withRange_cases (s.indexAddr 0) (x.val + 1) (.next (s.setRegs (loadBlock s.mem (s.indexAddr 0) (x.val + 1) s.V)).advance)
    with ⟨h, e⟩ | ⟨h, e⟩
  · exact .inl ⟨by simpa using h, e⟩
  · exact .inr ⟨by simpa using h, e⟩

theorem execSkp_cases (x : RegIdx) :
    (∃ h : (s.reg x).toNat < 16, execSkp x s = .next (s.skipIf (s.keyAt ⟨(s.reg x).toNat, h⟩))) ∨
      16 ≤ (s.reg x).toNat ∧ execSkp x s = .fault (.outOfRangeAccess (s.reg x).toNat) := by
  by_cases h : (s.reg x).toNat < 16
  · exact .inl ⟨h, withKey_ok s h _⟩
  · exact .inr ⟨by omega, withKey_raise s (by omega) _⟩

theorem execSknp_cases (x : RegIdx) :
    (∃ h : (s.reg x).toNat < 16, execSknp x s = .next (s.skipIf (!s.keyAt ⟨(s.reg x).toNat, h⟩))) ∨
      16 ≤ (s.reg x).toNat ∧ execSknp x s = .fault (.outOfRangeAccess (s.reg x).toNat) := by
  by_cases h : (s.reg x).toNat < 16
  · exact .inl ⟨h, withKey_ok s h _⟩
  · exact .inr ⟨by omega, withKey_raise s (by omega) _⟩

end Sys2Proof.Machine
end

