-- ==== Sys2Proof/Laws/PerInstr.lean ====
section
/-! SUPPORT. Per-instruction family `EncodeInRow`: the canonical word of an instruction selects that instruction's row of the opcode
map (30_encoding.md R76). One lemma per constructor. -/

namespace Sys2Proof.Laws.EncodeInRow

/-- The word that `encode` gives selects the instruction's row: `w & mask = match`. -/
def Statement (i : Instr) : Prop := i.row.selects (encode i) = true

theorem cls : Statement .cls :=
  (selects_F0FF _ _).mpr (by simp [encode, toNat_packByte])
theorem ret : Statement .ret :=
  (selects_F0FF _ _).mpr (by simp [encode, toNat_packByte])
theorem jp (nnn : BitVec 12) : Statement (.jp nnn) :=
  (selects_F000 _ _).mpr (by simp [encode, toNat_packAddr]; omega)
theorem call (nnn : BitVec 12) : Statement (.call nnn) :=
  (selects_F000 _ _).mpr (by simp [encode, toNat_packAddr]; omega)
theorem seImm (x : RegIdx) (nn : Byte) : Statement (.seImm x nn) :=
  (selects_F000 _ _).mpr (by simp [encode, toNat_packByte]; omega)
theorem sneImm (x : RegIdx) (nn : Byte) : Statement (.sneImm x nn) :=
  (selects_F000 _ _).mpr (by simp [encode, toNat_packByte]; omega)
theorem seReg (x : RegIdx) (y : RegIdx) : Statement (.seReg x y) :=
  (selects_F000 _ _).mpr (by simp [encode, toNat_packNibbles]; omega)
theorem ldImm (x : RegIdx) (nn : Byte) : Statement (.ldImm x nn) :=
  (selects_F000 _ _).mpr (by simp [encode, toNat_packByte]; omega)
theorem addImm (x : RegIdx) (nn : Byte) : Statement (.addImm x nn) :=
  (selects_F000 _ _).mpr (by simp [encode, toNat_packByte]; omega)
theorem ldReg (x : RegIdx) (y : RegIdx) : Statement (.ldReg x y) :=
  (selects_F00F _ _).mpr (by simp [encode, toNat_packNibbles]; omega)
theorem orReg (x : RegIdx) (y : RegIdx) : Statement (.orReg x y) :=
  (selects_F00F _ _).mpr (by simp [encode, toNat_packNibbles]; omega)
theorem andReg (x : RegIdx) (y : RegIdx) : Statement (.andReg x y) :=
  (selects_F00F _ _).mpr (by simp [encode, toNat_packNibbles]; omega)
theorem xorReg (x : RegIdx) (y : RegIdx) : Statement (.xorReg x y) :=
  (selects_F00F _ _).mpr (by simp [encode, toNat_packNibbles]; omega)
theorem addReg (x : RegIdx) (y : RegIdx) : Statement (.addReg x y) :=
  (selects_F00F _ _).mpr (by simp [encode, toNat_packNibbles]; omega)
theorem sub (x : RegIdx) (y : RegIdx) : Statement (.sub x y) :=
  (selects_F00F _ _).mpr (by simp [encode, toNat_packNibbles]; omega)
theorem shr (x : RegIdx) (y : RegIdx) : Statement (.shr x y) :=
  (selects_F00F _ _).mpr (by simp [encode, toNat_packNibbles]; omega)
theorem subn (x : RegIdx) (y : RegIdx) : Statement (.subn x y) :=
  (selects_F00F _ _).mpr (by simp [encode, toNat_packNibbles]; omega)
theorem shl (x : RegIdx) (y : RegIdx) : Statement (.shl x y) :=
  (selects_F00F _ _).mpr (by simp [encode, toNat_packNibbles]; omega)
theorem sneReg (x : RegIdx) (y : RegIdx) : Statement (.sneReg x y) :=
  (selects_F000 _ _).mpr (by simp [encode, toNat_packNibbles]; omega)
theorem ldI (nnn : BitVec 12) : Statement (.ldI nnn) :=
  (selects_F000 _ _).mpr (by simp [encode, toNat_packAddr]; omega)
theorem rnd (x : RegIdx) (nn : Byte) : Statement (.rnd x nn) :=
  (selects_F000 _ _).mpr (by simp [encode, toNat_packByte]; omega)
theorem drw (x : RegIdx) (y : RegIdx) (n : Nat) : Statement (.drw x y n) :=
  (selects_F000 _ _).mpr (by simp [encode, toNat_packNibbles]; omega)
theorem skp (x : RegIdx) : Statement (.skp x) :=
  (selects_F0FF _ _).mpr (by simp [encode, toNat_packByte]; omega)
theorem sknp (x : RegIdx) : Statement (.sknp x) :=
  (selects_F0FF _ _).mpr (by simp [encode, toNat_packByte]; omega)
theorem ldFromDT (x : RegIdx) : Statement (.ldFromDT x) :=
  (selects_F0FF _ _).mpr (by simp [encode, toNat_packByte]; omega)
theorem ldKey (x : RegIdx) : Statement (.ldKey x) :=
  (selects_F0FF _ _).mpr (by simp [encode, toNat_packByte]; omega)
theorem ldDT (x : RegIdx) : Statement (.ldDT x) :=
  (selects_F0FF _ _).mpr (by simp [encode, toNat_packByte]; omega)
theorem ldST (x : RegIdx) : Statement (.ldST x) :=
  (selects_F0FF _ _).mpr (by simp [encode, toNat_packByte]; omega)
theorem addI (x : RegIdx) : Statement (.addI x) :=
  (selects_F0FF _ _).mpr (by simp [encode, toNat_packByte]; omega)
theorem ldF (x : RegIdx) : Statement (.ldF x) :=
  (selects_F0FF _ _).mpr (by simp [encode, toNat_packByte]; omega)
theorem ldB (x : RegIdx) : Statement (.ldB x) :=
  (selects_F0FF _ _).mpr (by simp [encode, toNat_packByte]; omega)
theorem storeRegs (x : RegIdx) : Statement (.storeRegs x) :=
  (selects_F0FF _ _).mpr (by simp [encode, toNat_packByte]; omega)
theorem loadRegs (x : RegIdx) : Statement (.loadRegs x) :=
  (selects_F0FF _ _).mpr (by simp [encode, toNat_packByte]; omega)

end Sys2Proof.Laws.EncodeInRow
end

