-- ==== Sys2Proof/Laws/Step.lean ====
section
/-! SUPPORT. What a Step can do, said once: every claim about `step` goes through these. -/

namespace Sys2Proof.Machine

variable {s t : State}

/-- A Step whose word decodes is the execute phase between the snapshot and the tick (R100). -/
theorem step_of_executes {i : Instr} (h : s.executes i) :
    step s = match exec i s.beginStep with
      | .next u => .next u.endStep
      | .fault f => .fault f
      | .refused r => .refused r := by
  obtain ⟨w, hw, hd⟩ := h
  simp only [step, State.fetch_beginStep, hw, hd]
  all_goals cases exec i s.beginStep <;> rfl

/-- A Step answers a next state only by executing the decoded instruction and then ticking. -/
theorem step_eq_next_iff :
    step s = .next t ↔ ∃ i u, s.executes i ∧ exec i s.beginStep = .next u ∧ t = u.endStep := by
  constructor
  · intro h
    unfold step at h
    simp only [State.fetch_beginStep] at h
    split at h
    · simp [raise] at h
    · next w hw =>
      split at h
      · simp [raise] at h
      · next i hi =>
        split at h
        · next u hu => exact ⟨i, u, ⟨w, hw, hi⟩, hu, by simpa using h.symm⟩
        · simp at h
        · simp at h
  · rintro ⟨i, u, hi, hu, rfl⟩
    rw [step_of_executes hi, hu]

/-- A Step raises at fetch, at decode, or in the execute phase, in that order (R239). -/
theorem step_eq_fault_iff {f : Fault} :
    step s = .fault f ↔
      s.fetch = .error f ∨ (∃ w e, s.fetch = .ok w ∧ decodeWord w = .error e ∧ f = .invalidOpcode w) ∨
        ∃ i, s.executes i ∧ exec i s.beginStep = .fault f := by
  constructor
  · intro h
    unfold step at h
    simp only [State.fetch_beginStep] at h
    split at h
    · next g hg => exact .inl (by simpa [raise, hg] using h)
    · next w hw =>
      split at h
      · next e he => exact .inr (.inl ⟨w, e, hw, he, by simpa [raise] using h.symm⟩)
      · next i hi =>
        split at h
        · simp at h
        · next g hg => exact .inr (.inr ⟨i, ⟨w, hw, hi⟩, by simpa [hg] using h⟩)
        · simp at h
  · rintro (hf | ⟨w, e, hw, he, rfl⟩ | ⟨i, hi, hx⟩)
    · simp [step, hf, raise]
    · simp [step, hw, he, raise]
    · rw [step_of_executes hi, hx]

/-- The instruction a Step executes is determined by the state. -/
theorem State.executes_unique {i j : Instr} (hi : s.executes i) (hj : s.executes j) : i = j := by
  obtain ⟨w, hw, hd⟩ := hi
  obtain ⟨v, hv, he⟩ := hj
  rw [hw] at hv
  obtain rfl : w = v := by simpa using hv
  rw [hd] at he
  simpa using he

end Sys2Proof.Machine
end

