-- ==== Sys2Proof/Tests/Slice0.lean ====
section
/-! SUPPORT. The model's own tests. Expected values are the spec's: the words of 30_encoding.md R76 written out digit by digit, and the
worked examples and vectors of 95_test_vectors.md (named in each comment), never the model's own answers. -/

namespace Sys2Proof.Tests

open Sys2Proof.Machine

/-- The next state, if there is one. -/
def after (o : Host.Outcome State Fault Refusal) : Option State :=
  match o with
  | .next t => some t
  | .fault _ => none
  | .refused _ => none

/-- The error, if there is one. -/
def faultOf (o : Host.Outcome State Fault Refusal) : Option Fault :=
  match o with
  | .next _ => none
  | .fault f => some f
  | .refused _ => none

/-- The refusal, if there is one. -/
def refusalOf (o : Host.Outcome State Fault Refusal) : Option Refusal :=
  match o with
  | .next _ => none
  | .fault _ => none
  | .refused r => some r

/-- The state of 95_test_vectors.md's conventions: reset, the word under test at 0x200. -/
def ready (w : Nat) : State := State.reset.withFetchWord 16 w

/-- Some registers set. -/
def regs (l : List (RegIdx × Byte)) (s : State) : State := l.foldl (fun s p => s.setReg p.1 p.2) s

/-- Some bytes in memory. -/
def bytes (a : Nat) (bs : List Byte) (s : State) : State := s.setMem (s.mem.writeBlock a bs)

/-- Some pixels set. -/
def lit (ps : List (PixX × PixY)) (s : State) : State :=
  s.setBlock { s.block with FB := ps.foldl (fun f p => f.flip p.1 p.2) s.block.FB }

/-- Both timers set. -/
def timers (dt st : Byte) (s : State) : State := s.setBlock { s.block with DT := dt, ST := st }

/-- The call stack filled to a depth. -/
def depth (n : Fin 17) (s : State) : State := { s with sp := n }

/-! ### Decoding: one word per row of R76 -/

theorem test_decode_cls : decodeTableWord 16 0x00E0 = some .cls := by decide
theorem test_decode_ret : decodeTableWord 16 0x00EE = some .ret := by decide
theorem test_decode_jp : decodeTableWord 16 0x1ABC = some (.jp 0xABC) := by decide
theorem test_decode_call : decodeTableWord 16 0x2300 = some (.call 0x300) := by decide
theorem test_decode_seImm : decodeTableWord 16 0x3A02 = some (.seImm 10 2) := by decide
theorem test_decode_sneImm : decodeTableWord 16 0x4A03 = some (.sneImm 10 3) := by decide
theorem test_decode_seReg : decodeTableWord 16 0x5120 = some (.seReg 1 2) := by decide
theorem test_decode_ldImm : decodeTableWord 16 0x6A02 = some (.ldImm 10 2) := by decide
theorem test_decode_addImm : decodeTableWord 16 0x7320 = some (.addImm 3 0x20) := by decide
theorem test_decode_ldReg : decodeTableWord 16 0x8120 = some (.ldReg 1 2) := by decide
theorem test_decode_orReg : decodeTableWord 16 0x8121 = some (.orReg 1 2) := by decide
theorem test_decode_andReg : decodeTableWord 16 0x8122 = some (.andReg 1 2) := by decide
theorem test_decode_xorReg : decodeTableWord 16 0x8123 = some (.xorReg 1 2) := by decide
theorem test_decode_addReg : decodeTableWord 16 0x8124 = some (.addReg 1 2) := by decide
theorem test_decode_sub : decodeTableWord 16 0x8125 = some (.sub 1 2) := by decide
theorem test_decode_shr : decodeTableWord 16 0x8126 = some (.shr 1 2) := by decide
theorem test_decode_subn : decodeTableWord 16 0x8127 = some (.subn 1 2) := by decide
theorem test_decode_shl : decodeTableWord 16 0x812E = some (.shl 1 2) := by decide
theorem test_decode_sneReg : decodeTableWord 16 0x9120 = some (.sneReg 1 2) := by decide
theorem test_decode_ldI : decodeTableWord 16 0xA2F0 = some (.ldI 0x2F0) := by decide
theorem test_decode_rnd : decodeTableWord 16 0xC10F = some (.rnd 1 0x0F) := by decide
/-- T30-13. -/
theorem test_decode_drw : decodeTableWord 16 0xDABC = some (.drw 10 11 12) := by decide
theorem test_decode_skp : decodeTableWord 16 0xE49E = some (.skp 4) := by decide
theorem test_decode_sknp : decodeTableWord 16 0xE4A1 = some (.sknp 4) := by decide
theorem test_decode_ldFromDT : decodeTableWord 16 0xF307 = some (.ldFromDT 3) := by decide
/-- T30-12. -/
theorem test_decode_ldKey : decodeTableWord 16 0xF10A = some (.ldKey 1) := by decide
theorem test_decode_ldDT : decodeTableWord 16 0xF015 = some (.ldDT 0) := by decide
theorem test_decode_ldST : decodeTableWord 16 0xF118 = some (.ldST 1) := by decide
theorem test_decode_addI : decodeTableWord 16 0xF21E = some (.addI 2) := by decide
theorem test_decode_ldF : decodeTableWord 16 0xF229 = some (.ldF 2) := by decide
theorem test_decode_ldB : decodeTableWord 16 0xF033 = some (.ldB 0) := by decide
theorem test_decode_storeRegs : decodeTableWord 16 0xF155 = some (.storeRegs 1) := by decide
theorem test_decode_loadRegs : decodeTableWord 16 0xF265 = some (.loadRegs 2) := by decide

/-- T30-2, T30-3, T30-6, T30-7: bits that dispatch does not examine. -/
theorem test_decode_ignored_bits :
    decodeTableWord 16 0x0AE0 = some .cls ∧ decodeTableWord 16 0x0FEE = some .ret ∧
      decodeTableWord 16 0x5127 = some (.seReg 1 2) ∧ decodeTableWord 16 0x9AB5 = some (.sneReg 10 11) := by decide

/-- T30-4, T30-5, T30-8 to T30-11. -/
theorem test_decode_invalid :
    ∀ w ∈ [0x0000, 0x00E1, 0x00FF, 0x0123, 0x8128, 0x812D, 0x812F, 0xB000, 0xB234, 0xBFFF, 0xE19F, 0xE1A0, 0xE100, 0xF100, 0xF175, 0xF130],
      decodeTableWord 16 w = none := by decide

/-- R230: the decoder rejects by name. -/
theorem test_decode_rejects_by_name : decodeWord 0xB123 = .error (.invalidOpcode 0xB123) := by rfl

/-- The one check of `Instr.wellFormed` refuses a row count of 16 (R74). -/
theorem test_wellFormed_refuses_count_16 : (Instr.drw 1 2 16).wellFormed = false := by decide

/-- The encoder gives R76's words. -/
theorem test_encode :
    encode .cls = 0x00E0 ∧ encode (.drw 1 2 15) = 0xD12F ∧ encode (.loadRegs 2) = 0xF265 ∧ encode (.shl 1 2) = 0x812E := by decide

/-- R81: the spelling of 6A02. -/
theorem test_asm : (Instr.ldImm 10 2).asm = "LD VA, 2" := by decide

/-! ### One Step each -/

/-- S2. -/
theorem test_ldImm : (after (step (ready 0x6A02))).map (fun t => (t.reg 10, t.pc)) = some (2, 0x202) := by decide

/-- S3. -/
theorem test_seImm_skips : (after (step (regs [(10, 2)] (ready 0x3A02)))).map (·.pc) = some 0x204 := by decide
/-- S3. -/
theorem test_seImm_no_skip : (after (step (regs [(10, 2)] (ready 0x3A03)))).map (·.pc) = some 0x202 := by decide
/-- T40-7, T40-8. -/
theorem test_sneImm : (after (step (regs [(10, 2)] (ready 0x4A02)))).map (·.pc) = some 0x202 ∧
    (after (step (regs [(10, 2)] (ready 0x4A03)))).map (·.pc) = some 0x204 := by decide
/-- T40-9, T40-10. -/
theorem test_seReg : (after (step (regs [(1, 7), (2, 7)] (ready 0x5120)))).map (·.pc) = some 0x204 ∧
    (after (step (regs [(1, 7), (2, 8)] (ready 0x5120)))).map (·.pc) = some 0x202 := by decide
/-- T40-12, T40-13. -/
theorem test_sneReg : (after (step (regs [(1, 7), (2, 8)] (ready 0x9120)))).map (·.pc) = some 0x204 ∧
    (after (step (ready 0x9330))).map (·.pc) = some 0x202 := by decide
/-- T40-1. -/
theorem test_jp : (after (step (ready 0x1ABC))).map (·.pc) = some 0xABC := by decide
/-- T40-3. -/
theorem test_call : (after (step (depth 15 (ready 0x2400)))).map (fun t => (t.stack[15], t.sp, t.pc)) = some (0x200, 16, 0x400) := by
  decide
/-- T40-4. -/
theorem test_call_overflow : faultOf (step (depth 16 (ready 0x2400))) = some .stackOverflow := by decide
/-- T40-6: `sp = 2`, `stack[1] = 0x0ABC`. -/
theorem test_ret : (after (step { depth 2 (ready 0x00EE) with stack := State.reset.stack.set 1 0xABC })).map (fun t => (t.sp, t.pc)) =
    some (1, 0xABE) := by decide
/-- T40-5. -/
theorem test_ret_underflow : faultOf (step (ready 0x00EE)) = some .stackUnderflow := by decide

/-- T41-1, T41-2. -/
theorem test_addImm : (after (step (regs [(3, 0xFF)] (ready 0x7301)))).map (fun t => (t.reg 3, t.reg 15)) = some (0, 0) ∧
    (after (step (regs [(15, 0xFE)] (ready 0x7F03)))).map (·.reg 15) = some 1 := by decide
/-- T41-3. -/
theorem test_ldReg : (after (step (regs [(2, 0x5A)] (ready 0x8120)))).map (·.reg 1) = some 0x5A := by decide
/-- T41-4. -/
theorem test_or : (after (step (regs [(1, 0x0F), (2, 0xF0), (15, 1)] (ready 0x8121)))).map (fun t => (t.reg 1, t.reg 15)) =
    some (0xFF, 0) := by decide
/-- T41-7: X = 15, the flag is written last. -/
theorem test_or_vf : (after (step (regs [(15, 0xAA), (2, 0x55)] (ready 0x8F21)))).map (·.reg 15) = some 0 := by decide
/-- T41-5. -/
theorem test_and : (after (step (regs [(1, 0x3C), (2, 0x0F), (15, 1)] (ready 0x8122)))).map (fun t => (t.reg 1, t.reg 15)) =
    some (0x0C, 0) := by decide
/-- T41-6, T41-25. -/
theorem test_xor : (after (step (regs [(1, 0xFF), (2, 0x0F), (15, 1)] (ready 0x8123)))).map (fun t => (t.reg 1, t.reg 15)) =
    some (0xF0, 0) ∧ (after (step (regs [(4, 0x33)] (ready 0x8443)))).map (·.reg 4) = some 0 := by decide
/-- T41-8, T41-9. -/
theorem test_addReg : (after (step (regs [(1, 0xFE), (2, 0x01)] (ready 0x8124)))).map (fun t => (t.reg 1, t.reg 15)) =
    some (0xFF, 0) ∧ (after (step (regs [(1, 0x80), (2, 0x80)] (ready 0x8124)))).map (fun t => (t.reg 1, t.reg 15)) = some (0, 1) := by
  decide
/-- T41-11. -/
theorem test_addReg_vf : (after (step (regs [(15, 0xFF), (2, 2)] (ready 0x8F24)))).map (·.reg 15) = some 1 := by decide
/-- S5, T41-12. -/
theorem test_sub : (after (step (regs [(1, 1), (2, 2)] (ready 0x8125)))).map (fun t => (t.reg 1, t.reg 15)) = some (0xFF, 0) ∧
    (after (step (regs [(1, 5), (2, 5)] (ready 0x8125)))).map (fun t => (t.reg 1, t.reg 15)) = some (0, 1) := by decide
/-- T41-15, T41-16. -/
theorem test_subn : (after (step (regs [(1, 2), (2, 1)] (ready 0x8127)))).map (fun t => (t.reg 1, t.reg 15)) = some (0xFF, 0) ∧
    (after (step (regs [(1, 1), (2, 3)] (ready 0x8127)))).map (fun t => (t.reg 1, t.reg 15)) = some (2, 1) := by decide
/-- T41-17, T41-20. -/
theorem test_shr : (after (step (regs [(1, 0x99), (2, 6)] (ready 0x8126)))).map (fun t => (t.reg 1, t.reg 15)) = some (3, 7) ∧
    (after (step (regs [(2, 4)] (ready 0x8126)))).map (fun t => (t.reg 1, t.reg 15)) = some (2, 5) := by decide
/-- T41-24: Y = 15, the old VF is the input. -/
theorem test_shr_from_vf : (after (step (regs [(15, 6)] (ready 0x81F6)))).map (fun t => (t.reg 1, t.reg 15)) = some (3, 7) := by decide
/-- T41-21, T41-22. -/
theorem test_shl : (after (step (regs [(1, 0x99), (2, 0xC1)] (ready 0x812E)))).map (fun t => (t.reg 1, t.reg 15)) = some (0x82, 1) ∧
    (after (step (regs [(2, 0x7F)] (ready 0x812E)))).map (fun t => (t.reg 1, t.reg 15)) = some (0xFE, 0) := by decide

/-- T42-1. -/
theorem test_ldI : (after (step ((ready 0xA2F0).setI 0xFFFF))).map (fun t => (t.I, t.pc)) = some (0x2F0, 0x202) := by decide
/-- T42-3: whatever the draw, an immediate of 0 gives 0; one draw is used up. -/
theorem test_rnd_mask_zero (s : State) : (after (exec (.rnd 1 0) s)).map (fun t => (t.reg 1, t.draws)) = some (0, s.draws + 1) := by
  simp [after, exec, execRnd, immOperand, State.reg, State.setReg, State.advance, State.setPc, State.drawn]

/-- T43-11: one pixel set, then CLS. -/
theorem test_cls : (after (step (lit [(5, 5)] (ready 0x00E0)))).map (fun t => (t.block.FB, t.block.CHG, t.pc)) =
    some (Framebuffer.blank, true, 0x202) := by decide
/-- T43-3: start at x = 63, columns 1 to 7 wrap to x = 0 to 6 of row 0. -/
theorem test_drw_wraps : (after (step (regs [(0, 63)] (bytes 0x300 [0xFF] ((ready 0xD011).setI 0x300))))).map
    (fun t => (t.block.FB, t.block.CHG, t.reg 15)) = some (Framebuffer.blank.set 0 0x800000000000007F, true, 0) := by decide
/-- T43-7: a set pixel is cleared, then an unset one set: the collision stays. -/
theorem test_drw_collision_accumulates : (after (step (lit [(0, 0)] (bytes 0x300 [0xC0] ((ready 0xD011).setI 0x300))))).map
    (fun t => (t.block.FB, t.block.CHG, t.reg 15)) = some (Framebuffer.blank.set 0 2, true, 1) := by decide
/-- T43-8a. -/
theorem test_drw_out_of_range : faultOf (step ((ready 0xD013).setI 0xFFE)) = some (.outOfRangeAccess 4096) := by decide
/-- T43-4, T43-9: vertical wrap; X = 15 draws at the old VF. -/
theorem test_drw_vertical_and_vf :
    (after (step (regs [(1, 31)] (bytes 0x300 [0x80, 0x80] ((ready 0xD012).setI 0x300))))).map (·.block.FB) =
      some ((Framebuffer.blank.set 31 1).set 0 1) ∧
    (after (step (regs [(15, 5)] (bytes 0x300 [0x80] ((ready 0xDF11).setI 0x300))))).map (fun t => (t.block.FB, t.reg 15)) =
      some (Framebuffer.blank.set 0 0x20, 0) := by decide

/-- T44-1, T44-2. -/
theorem test_skp : (after (step (regs [(4, 10)] ((ready 0xE49E).setKey 10 true)))).map (·.pc) = some 0x204 ∧
    (after (step (regs [(4, 10)] (ready 0xE49E)))).map (·.pc) = some 0x202 := by decide
/-- T44-5. -/
theorem test_skp_out_of_range : faultOf (step (regs [(4, 16)] (ready 0xE49E))) = some (.outOfRangeAccess 16) := by decide
/-- T44-3, T44-4. -/
theorem test_sknp : (after (step (regs [(4, 10)] (ready 0xE4A1)))).map (·.pc) = some 0x204 ∧
    (after (step (regs [(4, 10)] ((ready 0xE4A1).setKey 10 true)))).map (·.pc) = some 0x202 := by decide
/-- T44-6. -/
theorem test_sknp_out_of_range : faultOf (step (regs [(4, 255)] (ready 0xE4A1))) = some (.outOfRangeAccess 255) := by decide
/-- T44-7: no key held, the timers tick all the same. -/
theorem test_ldKey_waits : (after (step (timers 2 0 (regs [(3, 0x77)] (ready 0xF30A))))).map (fun t => (t.pc, t.reg 3, t.block.DT)) =
    some (0x200, 0x77, 1) := by decide
/-- T44-8: key 5 held, the register is not written. -/
theorem test_ldKey_passes : (after (step (regs [(3, 0x77)] ((ready 0xF30A).setKey 5 true)))).map (fun t => (t.pc, t.reg 3)) =
    some (0x202, 0x77) := by decide

/-- T45-3: read before the tick. -/
theorem test_ldFromDT : (after (step (timers 1 0 (ready 0xF307)))).map (fun t => (t.reg 3, t.block.DT)) = some (1, 0) := by decide
/-- T45-2: written, then ticked in the same Step. -/
theorem test_ldDT : (after (step (regs [(0, 5)] (ready 0xF015)))).map (·.block.DT) = some 4 := by decide
/-- T45-9, first Step. -/
theorem test_ldST : (after (step (regs [(1, 2)] (ready 0xF118)))).map (·.block.ST) = some 1 := by decide
/-- T45-5: no tick on a faulting Step. -/
theorem test_fault_keeps_timers : faultOf (step (timers 3 2 (ready 0))) = some (.invalidOpcode 0) ∧
    (timers 3 2 (ready 0)).afterStep = timers 3 2 (ready 0) := by decide

/-- T46-2, T46-3. -/
theorem test_addI : (after (step (regs [(2, 0x0F), (15, 1)] ((ready 0xF21E).setI 0xFF0)))).map (fun t => (t.I, t.reg 15)) =
    some (0xFFF, 0) ∧ (after (step (regs [(2, 1)] ((ready 0xF21E).setI 0xFFF)))).map (fun t => (t.I, t.reg 15)) = some (0x1000, 1) := by
  decide
/-- T46-4. -/
theorem test_addI_wraps : (after (step (regs [(2, 1)] ((ready 0xF21E).setI 0xFFFF)))).map (fun t => (t.I, t.reg 15)) =
    some (0, 1) := by decide
/-- T46-5, T46-6. -/
theorem test_ldF : (after (step (regs [(2, 10)] (ready 0xF229)))).map (·.I) = some 0x32 ∧
    (after (step (regs [(2, 255)] (ready 0xF229)))).map (·.I) = some 0x4FB := by decide
/-- S6. -/
theorem test_ldB : (after (step (regs [(0, 234)] ((ready 0xF033).setI 0x300)))).map (fun t => t.mem.readBlock 0x300 3) =
    some [2, 3, 4] := by decide
/-- T46-10. -/
theorem test_ldB_out_of_range : faultOf (step (regs [(0, 9)] ((ready 0xF033).setI 0xFFE))) = some (.outOfRangeAccess 4096) := by decide
/-- T46-11. -/
theorem test_storeRegs : (after (step (regs [(0, 0xAA), (1, 0xBB), (2, 0xCC)] ((ready 0xF155).setI 0x300)))).map
    (fun t => (t.mem.readBlock 0x300 3, t.I)) = some ([0xAA, 0xBB, 0], 0x300) := by decide
/-- T46-13. -/
theorem test_storeRegs_out_of_range : faultOf (step ((ready 0xFF55).setI 0xFF1)) = some (.outOfRangeAccess 4096) := by decide
/-- T46-14. -/
theorem test_loadRegs : (after (step (regs [(3, 0x77)] (bytes 0x300 [2, 3, 4] ((ready 0xF265).setI 0x300))))).map
    (fun t => (t.reg 0, t.reg 1, t.reg 2, t.reg 3, t.I)) = some (2, 3, 4, 0x77, 0x300) := by decide
/-- T46-15: the glyph of 0 read back (log entry 4). -/
theorem test_loadRegs_glyph : (after (step (ready 0xF465))).map (fun t => (List.range 5).map (fun k => t.V.toList.getD k 0)) =
    some [0xF0, 0x90, 0x90, 0x90, 0xF0] := by decide

/-- T40-16 and T40-18: no fetch at 0xFFF; an odd `pc` is legal. -/
theorem test_fetch_bounds : faultOf (step (State.reset.setPc 0xFFF)) = some (.outOfRangeAccess 4096) ∧
    (after (step (bytes 0x201 [0x61, 0x07] (State.reset.setPc 0x201)))).map (fun t => (t.reg 1, t.pc)) = some (7, 0x203) := by decide

/-! ### Host operations -/

/-- T70-2: nothing loaded. -/
theorem test_reset_then_step : faultOf (step State.reset) = some (.invalidOpcode 0) := by decide
/-- T70-6: three bytes loaded at 0x200. -/
theorem test_load : (after (hostStep (.load [0x60, 0x01, 0x12]) State.reset)).map (fun t => (t.mem.readBlock 0x200 4, t.pc)) =
    some ([0x60, 0x01, 0x12, 0], 0x200) := by decide
/-- T70-4. -/
theorem test_load_too_long : faultOf (hostStep (.load (List.replicate 3585 0)) State.reset) = some (.loadError 3585) := by
  decide +kernel
/-- T44-10 and R241. -/
theorem test_keys : (after (hostStep (.press 3) State.reset)).map (·.keyState[3]) = some true ∧
    refusalOf (hostStep (.press 16) State.reset) = some (.keyOutOfContract 16) := by decide
/-- R175, R241: a pixel inside and one outside the grid. -/
theorem test_pixelAt : (pixelAt 5 5 (lit [(5, 5)] State.reset)).toOption = some true ∧ (pixelAt 64 0 State.reset).toOption = none := by
  decide
/-- R264, R266: before the first initialization nothing else has a meaning. -/
theorem test_driver : refusalOf (driver .step none) = some .notInitialized ∧
    (after (driver (.host (.init true)) none)).map (·.block.CHG) = some true := by decide
/-- The cell list stays canonical: writing the reset contents back removes the cell. -/
theorem test_memory_canonical : Memory.write (Memory.write [] 0x300 7) 0x300 0 = [] ∧ Memory.write [] 0 0xF0 = [] ∧
    Memory.write (Memory.write [] 0x301 2) 0x300 1 = [(0x300, 1), (0x301, 2)] := by decide
/-- A word is placed where the next Step fetches, at any `pc`. -/
theorem test_withFetchWord : (after (step ((State.reset.setPc 0xFFE).withFetchWord 16 0x1200))).map (·.pc) = some 0x200 ∧
    (after (step ((State.reset.setPc 0x1000).withFetchWord 16 0x1234))).map (·.pc) = some 0x234 := by decide

/-! ### The hypotheses of the obligations are met: one theorem per statement that has any, at the edges of its ranges -/

/-- A word that selects a row and decodes. -/
theorem witness_DecoderFollowsOpcodeMap :
    OpcodeRow.mk 0xF0FF 0x00E0 ∈ opcodeTable ∧ (OpcodeRow.mk 0xF0FF 0x00E0).selects 0x0FE0 = true ∧ decodeWord 0x0FE0 = .ok .cls :=
  ⟨by decide, by decide, rfl⟩

/-- A word of each invalid group, and one of none. -/
theorem witness_InvalidWordsAreExactlyThese :
    (0x00E1 / 4096 = 0 ∧ 0x00E1 % 256 ∉ [0xE0, 0xEE]) ∧ (0x812F / 4096 = 8 ∧ 0x812F % 16 ∈ [8, 9, 10, 11, 12, 13, 15]) ∧
      0xBFFF / 4096 = 0xB ∧ (0xE19F / 4096 = 0xE ∧ 0xE19F % 256 ∉ [0x9E, 0xA1]) ∧
      (0xF166 / 4096 = 0xF ∧ 0xF166 % 256 ∉ [0x07, 0x0A, 0x15, 0x18, 0x1E, 0x29, 0x33, 0x55, 0x65]) ∧ 0x1000 / 4096 = 1 := by decide

theorem witness_DecodeGivesBackEncoded : (Instr.drw 1 2 15).wellFormed = true := rfl

theorem witness_EncodeGivesBackDecoded :
    decodeWord 0x0AE0 = .ok .cls ∧ decodeWord 0x5127 = .ok (.seReg 1 2) ∧ decodeWord 0x1ABC = .ok (.jp 0xABC) := ⟨rfl, rfl, rfl⟩

/-- At the highest `pc` a word is fetched from, an instruction that goes on; and one that raises. -/
theorem witness_StepRunsTheDecodedInstruction :
    let s := (State.reset.setPc 4094).withFetchWord 16 0x6A02
    let f := ready 0x00EE
    s.pc.toNat ≤ 4094 ∧ decodeWord (joinBytes (s.mem.read s.pc.toNat) (s.mem.read (s.pc.toNat + 1))) = .ok (.ldImm 10 2) ∧
      (∃ u, exec (.ldImm 10 2) s.beginStep = .next u) ∧
      decodeWord (joinBytes (f.mem.read f.pc.toNat) (f.mem.read (f.pc.toNat + 1))) = .ok .ret ∧
      exec .ret f.beginStep = .fault .stackUnderflow :=
  ⟨by decide, rfl, ⟨_, rfl⟩, rfl, rfl⟩

theorem witness_FetchIsBigEndian : (State.reset.setPc 4094).pc.toNat ≤ 4094 := by decide

theorem witness_FetchPastTheEndRaises : 4096 ≤ (State.reset.setPc 4096).pc.toNat ∧ (State.reset.setPc 4095).pc.toNat = 4095 := by decide

theorem witness_JumpSetsProgramCounter : (ready 0x1FFF).executes (.jp 0xFFF) := ⟨0x1FFF, rfl, rfl⟩

/-- An empty stack, one entry free, none free. -/
theorem witness_CallPushesItsOwnAddress :
    (depth 0 State.reset).sp.val = (0 : Fin 16).val ∧ (depth 15 State.reset).sp.val = (15 : Fin 16).val ∧
      (depth 16 State.reset).sp.val = 16 := by decide

/-- A full stack, one entry, none. -/
theorem witness_ReturnPopsAndAddsTwo :
    (depth 16 State.reset).sp.val = (15 : Fin 16).val + 1 ∧ (depth 1 State.reset).sp.val = (0 : Fin 16).val + 1 ∧
      (depth 0 State.reset).sp.val = 0 := by decide

theorem witness_ReturnComesBackAfterTheCall :
    ∃ t u : State, exec (.call 0x400) (depth 15 State.reset) = .next t ∧ u.sp = t.sp ∧ u.stack = t.stack := ⟨_, _, rfl, rfl, rfl⟩

theorem witness_RandomIsMaskedAndBounded : 7 < 8 ∧ (0x0F : Byte).getLsbD 7 = false := by decide

/-- Fifteen rows, of which one covers the pixel (0, 0) of a start at (64, 32). -/
theorem witness_DrawInvertsExactlyTheCoveredPixels :
    (List.replicate 15 (0x80 : Byte)).length ≤ 15 ∧ SpriteCovers 64 32 (List.replicate 15 0x80) 0 0 :=
  ⟨by decide, 0, by decide, 0, by decide, by decide, by decide, by decide⟩

/-- The last rows that exist; no rows at any address; a covered pixel that was set, and none. -/
theorem witness_DrwClosedForm :
    (15 ≤ 15 ∧ (State.reset.setI 4081).I.toNat + 15 ≤ 4096) ∧ (0 ≤ 15 ∧ (State.reset.setI 0xFFFF).I.toNat = 0xFFFF) ∧
      (State.DrwCovers (lit [(0, 0)] State.reset) 0 0 1 0 0 ∧ (lit [(0, 0)] State.reset).block.FB.pixel 0 0 = true) ∧
      ¬ ∃ px py, State.DrwCovers State.reset 0 0 1 px py ∧ State.reset.block.FB.pixel px py = true := by
  refine ⟨by decide, by decide, ⟨⟨0, 0, by decide, by decide, by decide, by decide, by decide⟩, by decide⟩, ?_⟩
  rintro ⟨px, py, -, h⟩
  have : State.reset.block.FB.pixel px py = false := by revert px py; decide
  simp [this] at h

theorem witness_DrwLeavesTheRestAlone :
    (0 ≤ 15 ∧ (0 = 0 ∨ (State.reset.setI 0xFFFF).I.toNat + 0 ≤ 4096)) ∧
      (15 ≤ 15 ∧ (15 = 0 ∨ (State.reset.setI 4081).I.toNat + 15 ≤ 4096)) := by decide

/-- The first address that does not exist, reached by the first and by the last row. -/
theorem witness_DrwWithoutRowsOrOutOfRange :
    (1 ≤ 1 ∧ (State.reset.setI 4096).I.toNat + 1 - 1 > 4095) ∧ (1 ≤ 15 ∧ (State.reset.setI 4082).I.toNat + 15 - 1 > 4095) := by decide

theorem witness_DrawingTwiceRestoresThePixels :
    (List.replicate 15 (0xFF : Byte)).length ≤ 15 ∧ (3 : Byte).toNat % 64 = (67 : Byte).toNat % 64 ∧
      (31 : Byte).toNat % 32 = (63 : Byte).toNat % 32 := by decide

theorem witness_SkipsOnKeys :
    ((regs [(4, 15)] State.reset).reg 4).toNat = (15 : KeyIdx).val ∧ ((regs [(4, 16)] State.reset).reg 4).toNat > 15 := by decide

theorem witness_StepTestsKeysAsTheyStand :
    ((regs [(4, 15)] (ready 0xE49E)).reg 4).toNat = (15 : KeyIdx).val ∧ (regs [(4, 15)] (ready 0xE49E)).executes (.skp 4) ∧
      ((regs [(4, 15)] (ready 0xE4A1)).reg 4).toNat = (15 : KeyIdx).val ∧ (regs [(4, 15)] (ready 0xE4A1)).executes (.sknp 4) :=
  ⟨by decide, ⟨0xE49E, rfl, rfl⟩, by decide, ⟨0xE4A1, rfl, rfl⟩⟩

theorem witness_KeyWaitPollsAndLoadsNothing :
    (∃ k : KeyIdx, (State.reset.setKey 15 true).keyAt k = true) ∧ ∀ k : KeyIdx, State.reset.keyAt k = false := by decide

theorem witness_EveryStepTicksOnce : ∃ t, step (ready 0x6A02) = .next t := ⟨_, rfl⟩

theorem witness_TimerReadAndWriteComeBeforeTheTick :
    (ready 0xF307).executes (.ldFromDT 3) ∧ (ready 0xF315).executes (.ldDT 3) ∧ (ready 0xF318).executes (.ldST 3) :=
  ⟨⟨0xF307, rfl, rfl⟩, ⟨0xF315, rfl, rfl⟩, ⟨0xF318, rfl, rfl⟩⟩

/-- One Step that writes no timer, under either condition; no Step at all. -/
theorem witness_TimersRunDownOverSteps :
    (∃ t, Runs (fun i => ∀ x, i ≠ .ldDT x) 1 (timers 5 1 (ready 0x1200)) t) ∧
      (∃ t, Runs (fun i => ∀ x, i ≠ .ldST x) 1 (timers 5 1 (ready 0x1200)) t) ∧
      Runs (fun i => ∀ x, i ≠ .ldDT x) 0 State.reset State.reset :=
  ⟨⟨_, .more (i := .jp 0x200) ⟨0x1200, rfl, rfl⟩ (by simp) rfl (.done _)⟩,
    ⟨_, .more (i := .jp 0x200) ⟨0x1200, rfl, rfl⟩ (by simp) rfl (.done _)⟩, .done _⟩

theorem witness_BcdStoresThreeDigits :
    (State.reset.setI 0xFFD).I.toNat + 2 ≤ 4095 ∧ (State.reset.setI 0xFFE).I.toNat + 2 > 4095 := by decide

theorem witness_StoreWritesRegistersUpToX :
    (State.reset.setI 0xFF0).I.toNat + (15 : RegIdx).val ≤ 4095 ∧ (0 : RegIdx) ≤ 15 ∧
      (State.reset.setI 0xFF1).I.toNat + (15 : RegIdx).val > 4095 := by decide

theorem witness_LoadReadsRegistersUpToX :
    (State.reset.setI 0xFFF).I.toNat + (0 : RegIdx).val ≤ 4095 ∧ (0 : RegIdx) ≤ 0 ∧ (0 : RegIdx) < 1 ∧
      (State.reset.setI 0x1000).I.toNat + (0 : RegIdx).val > 4095 := by decide

/-- `LD [I], V1` at 0x200 with `I` = 0x202. -/
theorem witness_StoreIsSeenByTheNextFetch :
    let s := (ready 0xF155).setI 0x202
    s.executes (.storeRegs 1) ∧ s.I.toNat + (1 : RegIdx).val ≤ 4095 ∧ (1 : RegIdx).val = (0 : RegIdx).val + 1 ∧ (1 : RegIdx) ≤ 1 ∧
      s.indexAddr (0 : RegIdx).val = s.pc.toNat + 2 := ⟨⟨0xF155, rfl, rfl⟩, by decide⟩

theorem witness_ErrorsRepeatUntilReload :
    step State.reset = .fault (.invalidOpcode 0) ∧ (∃ u, hostStep (.press 15) State.reset = .next u) ∧
      (∃ u, hostStep (.release 0) State.reset = .next u) ∧ ∃ u, hostStep .chgClear State.reset = .next u :=
  ⟨rfl, ⟨_, rfl⟩, ⟨_, rfl⟩, ⟨_, rfl⟩⟩

/-- A return from depth 1, and the key wait in both conditions. -/
theorem witness_EveryInstructionsEffectOnPc :
    (∃ t, exec .ret (depth 1 State.reset) = .next t) ∧ (depth 1 State.reset).sp.val = (0 : Fin 16).val + 1 ∧
      (∃ t, exec (.ldKey 3) (State.reset.setKey 15 true) = .next t) ∧ ∃ t, exec (.ldKey 3) State.reset = .next t :=
  ⟨⟨_, rfl⟩, by decide, ⟨_, rfl⟩, ⟨_, rfl⟩⟩

theorem witness_OnlyDestinationsAndFlagsAreWritten : ∃ t, exec (.addReg 1 2) State.reset = .next t := ⟨_, rfl⟩

theorem witness_OnlyBcdAndBlockStoreWriteMemory :
    (∃ t, exec (.ldB 1) (State.reset.setI 0xFFD) = .next t) ∧ (∃ t, exec (.storeRegs 15) (State.reset.setI 0xFF0) = .next t) ∧
      ∃ t, exec (.loadRegs 15) (State.reset.setI 0xFF0) = .next t := ⟨⟨_, rfl⟩, ⟨_, rfl⟩, ⟨_, rfl⟩⟩

theorem witness_OnlyNamedInstructionsWriteStackAndIndex : ∃ t, exec (.ldDT 1) State.reset = .next t := ⟨_, rfl⟩

theorem witness_OnlyNamedInstructionsWriteTheBlock :
    (∃ t, exec (.ldF 1) State.reset = .next t) ∧ ∃ t, exec .cls (State.resetWith true) = .next t ∧ (State.resetWith true).block.CHG = true :=
  ⟨⟨_, rfl⟩, ⟨_, rfl, rfl⟩⟩

theorem witness_ChangedFlagAndSoundTimerAreInvisible :
    (∃ t, step (ready 0x00E0) = .next t) ∧ step State.reset = .fault (.invalidOpcode 0) := ⟨⟨_, rfl⟩, rfl⟩

/-- The state after reset meets the invariant. -/
theorem reset_inv : State.reset.Inv := ⟨by decide, by decide, by decide, rfl⟩

/-- A state with a program meets it too, and its Step goes on. -/
theorem witness_StepKeepsTheInvariant : (ready 0x2300).Inv ∧ ∃ t, step (ready 0x2300) = .next t :=
  ⟨⟨by decide, by decide, by decide, rfl⟩, ⟨_, rfl⟩⟩

theorem witness_HostOperationsKeepTheInvariant :
    State.reset.Inv ∧ (∃ t, hostStep (.press 15) State.reset = .next t) ∧ Reachable (State.resetWith true) :=
  ⟨reset_inv, ⟨_, rfl⟩, .init true⟩

/-- A session before the first initialization that does anything else. -/
theorem witness_InitializationLeavesTheResetState :
    (∀ chg, DriverOp.step ≠ .host (.init chg)) ∧ 80 ≤ 80 := ⟨by simp, by decide⟩

theorem witness_LoadCopiesOrRaises :
    (List.replicate 3584 (0 : Byte)).length ≤ 3584 ∧ 3583 < (List.replicate 3584 (0 : Byte)).length ∧
      (List.replicate 3585 (0 : Byte)).length > 3584 := by
  simp only [List.length_replicate]; decide

theorem witness_KeyEventsSetOneFlag : (0 : KeyIdx) ≠ 15 ∧ 15 < 16 := by decide

theorem witness_OnlyTheRendererClearsTheChangedFlag :
    (∃ t, step ((ready 0x6A02).setBlock (Block.reset true)) = .next t) ∧ ((ready 0x6A02).setBlock (Block.reset true)).block.CHG = true ∧
      (∃ t, hostStep .chgClear (State.resetWith true) = .next t ∧ t.block.CHG = false) ∧
      ∃ t, hostStep (.init false) (State.resetWith true) = .next t ∧ t.block.CHG = false :=
  ⟨⟨_, rfl⟩, rfl, ⟨_, rfl, rfl⟩, ⟨_, rfl, rfl⟩⟩

/-- At 0x200 a jump to 0x200, with the timers running and at their end. -/
theorem witness_JumpToItselfOnlyTicks :
    (ready 0x1200).key = none ∧ (timers 3 1 (ready 0x1200)).executes (.jp ((timers 3 1 (ready 0x1200)).pc.setWidth 12)) ∧
      Ended (ready 0x1200) :=
  ⟨rfl, ⟨0x1200, rfl, rfl⟩, ⟨0x1200, rfl, rfl⟩, rfl, rfl⟩

end Sys2Proof.Tests
end

namespace Sys2Proof.Machine

/-- Two bytes always fit in a word: joining them loses nothing to the word's width (R54). -/
@[simp] theorem toNat_joinBytes (hi lo : Byte) : (joinBytes hi lo).toNat = hi.toNat * 256 + lo.toNat := by
  have hfit : hi.toNat * 256 + lo.toNat < 2 ^ 16 := by omega
  rw [joinBytes, BitVec.toNat_ofNat, Nat.mod_eq_of_lt hfit]

/-- Settles O8: below 4095 the fetched word is the join of the two bytes, and each part of a join is read back. -/
theorem fetchIsBigEndian : Obligations.FetchIsBigEndian := fun s hpc =>
  ⟨_, s.fetch_ok hpc, toNat_joinBytes _ _, highByte_joinBytes _ _, lowByte_joinBytes _ _⟩

end Sys2Proof.Machine

namespace Sys2Proof

/-- The low byte is its two nibbles (R72). -/
theorem fields_NN_eq_Y_N (w : Word) : (fields w).NN.toNat = (fields w).Y.val * 16 + (fields w).N.val := by
  rw [fields_NN_toNat, fields_Y_val, fields_N_val]; omega

/-- The address field is register nibble `X`, then the low byte (R72). -/
theorem fields_NNN_eq_X_NN (w : Word) : (fields w).NNN.toNat = (fields w).X.val * 256 + (fields w).NN.toNat := by
  rw [fields_NNN_toNat, fields_X_val, fields_NN_toNat]; omega

/-- A word is its selector nibble, then the address field (R73). -/
theorem toNat_eq_fields_T_NNN (w : Word) : w.toNat = (fields w).T.val * 4096 + (fields w).NNN.toNat := by
  rw [fields_T_val, fields_NNN_toNat, Nat.div_add_mod']

/-- Settles O2: the address view holds of every word; splitting `NNN` into `X` and `NN`, then `NN` into `Y` and `N`,
gives the two finer views. -/
theorem fieldsRebuildTheWord : Obligations.FieldsRebuildTheWord := by
  intro w
  have hAddr := toNat_eq_fields_T_NNN w
  have hByte : w.toNat = (fields w).T.val * 4096 + (fields w).X.val * 256 + (fields w).NN.toNat := by
    rw [hAddr, fields_NNN_eq_X_NN, Nat.add_assoc]
  have hNibbles : w.toNat =
      (fields w).T.val * 4096 + (fields w).X.val * 256 + (fields w).Y.val * 16 + (fields w).N.val := by
    rw [hByte, fields_NN_eq_Y_N, Nat.add_assoc _ (_ * 16)]
  exact ⟨hNibbles, hByte, hAddr⟩

end Sys2Proof

namespace Sys2Proof

/-- R76, group 0x6: the selector nibble alone picks LD Vx,nn. -/
theorem decodeWord_packByte_ldImm (x : RegIdx) (nn : Byte) : decodeWord (packByte 0x6 x nn) = .ok (.ldImm x nn) := by
  simp [decodeWord]

/-- R76, group 0x3: the selector nibble alone picks SE Vx,nn. -/
theorem decodeWord_packByte_seImm (x : RegIdx) (nn : Byte) : decodeWord (packByte 0x3 x nn) = .ok (.seImm x nn) := by
  simp [decodeWord]

end Sys2Proof

namespace Sys2Proof.Machine

/-- The frame of a register instruction: a state that differs at most in the register file and `pc` keeps everything else. -/
theorem SameBesideRegs.of_eq {s t : State} (h : t = { s with V := t.V, pc := t.pc }) : SameBesideRegs s t := by
  rw [h]
  exact ⟨rfl, fun _ => rfl, ⟨rfl, fun _ => rfl⟩, ⟨rfl, rfl⟩, ⟨fun _ _ => rfl, rfl⟩, ⟨rfl, rfl⟩, rfl⟩

/-- A write to one register leaves the others (R21). -/
theorem sameRegsBut_setReg (s : State) (x : RegIdx) (v : Byte) : SameRegsBut [x] s (s.setReg x v) := by
  intro r hr
  rw [State.reg_setReg, if_neg (by simpa using hr)]

/-- R120: one register write, then the advance to the next instruction. -/
theorem exec_ldImm (x : RegIdx) (nn : Byte) (s : State) : exec (.ldImm x nn) s = .next (s.setReg x nn).advance := rfl

/-- R106: nothing but the skip on the comparison. -/
theorem exec_seImm (x : RegIdx) (nn : Byte) (s : State) : exec (.seImm x nn) s = .next (s.skipIf (s.reg x == nn)) := rfl

/-- Settles O11: the load is one register write and an advance, the skip moves `pc` by its comparison alone; the rest is
their frames, and each word decodes by its selector nibble. -/
theorem loadImmediateAndSkipIfEqual : Obligations.LoadImmediateAndSkipIfEqual := by
  intro x nn s
  have hload : (s.setReg x nn).advance.reg x = nn := by simp
  have hskip : (s.skipIf (s.reg x == nn)).pc = if s.reg x = nn then s.pc + 4 else s.pc + 2 := by simp
  exact ⟨⟨_, exec_ldImm x nn s, hload, sameRegsBut_setReg s x nn, rfl, .of_eq rfl⟩,
    ⟨_, exec_seImm x nn s, hskip, fun _ _ => rfl, .of_eq rfl⟩,
    decodeWord_packByte_ldImm x nn, decodeWord_packByte_seImm x nn⟩

end Sys2Proof.Machine

namespace Sys2Proof.Machine

/-! ### DRW and the changed flag (43_sprite_framebuffer.md) -/

/-- R166 at the block: a draw inverts a pixel exactly when the sprite covers it. -/
theorem Block.pixel_draw (b : Block) (x0 y0 : Byte) {rows : List Byte} (hl : rows.length ≤ 32) (px : PixX) (py : PixY) :
    (b.draw x0 y0 rows).1.FB.pixel px py = true ↔ (b.FB.pixel px py = true ↔ ¬ SpriteCovers x0 y0 rows px py) := by
  rw [spriteCovers_iff]
  exact Drawing.rows_pixel x0 y0 rows hl 0 _ px py

/-- Settles O25: the block's closed form, read off for a covered and for an uncovered pixel. -/
theorem drawInvertsExactlyTheCoveredPixels : Obligations.DrawInvertsExactlyTheCoveredPixels := by
  intro b x0 y0 rows hl px py
  rw [Block.pixel_draw b x0 y0 (by omega)]
  by_cases hcov : SpriteCovers x0 y0 rows px py
  · simp [hcov]
  · simp [hcov]

/-- R152, R155: with every row inside the address space DRW completes in the one execute phase. -/
theorem exec_drw_ok {s : State} {n : Nat} (h : n = 0 ∨ s.I.toNat + n ≤ 4096) (x y : RegIdx) :
    exec (.drw x y n) s = .next (((s.setBlock (s.block.draw (s.reg x) (s.reg y) (s.spriteRows n)).1).setReg VF
      (flagByte (s.block.draw (s.reg x) (s.reg y) (s.spriteRows n)).2)).advance) :=
  withRange_ok h _

/-- Settles O27: DRW replaces the block by what the draw left, writes VF and advances; a draw leaves both timers. -/
theorem drwLeavesTheRestAlone : Obligations.DrwLeavesTheRestAlone := by
  intro x y n s _ hrange
  refine ⟨_, exec_drw_ok hrange x y, State.pc_advance _, rfl, fun _ => rfl, ?regs, ⟨Block.DT_draw .., Block.ST_draw ..⟩,
    ⟨rfl, fun _ => rfl⟩, ⟨rfl, rfl⟩, rfl⟩
  case regs => exact sameRegsBut_setReg (s.setBlock _) VF _

/-- A checked range that goes on has passed its check. -/
theorem withRange_eq_next {first count : Nat} {go : Host.Outcome State Fault Refusal} {t : State}
    (h : withRange first count go = .next t) : go = .next t := by
  rcases withRange_cases first count go with ⟨_, hgo⟩ | ⟨_, hfault⟩
  · exact hgo ▸ h
  · simp [hfault] at h

/-- A key test that goes on has read some key. -/
theorem withKey_eq_next {k : Byte} {s t : State} {go : Bool → Host.Outcome State Fault Refusal}
    (h : withKey k s go = .next t) : ∃ pressed, go pressed = .next t := by
  by_cases hk : k.toNat < 16
  · exact ⟨_, withKey_ok s hk go ▸ h⟩
  · simp [withKey_raise s (Nat.le_of_not_lt hk)] at h

/-- A draw never clears the changed flag (R159). -/
theorem Block.draw_keeps_changed {b : Block} (h : b.CHG = true) (x0 y0 : Byte) (rows : List Byte) :
    (b.draw x0 y0 rows).1.CHG = true :=
  (Drawing.rows_chg x0 y0 rows 0 _).mpr (.inl h)

/-- No instruction clears the changed flag: CLS sets it, DRW keeps it (R159), the rest of the block's commands write the timers. -/
theorem exec_keeps_changed {i : Instr} {s t : State} (h : exec i s = .next t) (hset : s.block.CHG = true) :
    t.block.CHG = true := by
  cases i with
  | cls => obtain rfl := Host.Outcome.next.inj h; rfl
  | drw x y n =>
    simp only [exec, execDrw] at h
    obtain rfl := Host.Outcome.next.inj (withRange_eq_next h)
    exact Block.draw_keeps_changed hset _ _ _
  | ret =>
    rcases execRet_cases s with ⟨_, u, hu, _, _, hframe⟩ | ⟨_, hfault⟩
    · obtain rfl := Host.Outcome.next.inj (hu.symm.trans h)
      rw [hframe]; exact hset
    · cases hfault.symm.trans h
  | call nnn =>
    rcases execCall_cases s nnn with ⟨_, u, hu, _, _, _, hframe⟩ | ⟨_, hfault⟩
    · obtain rfl := Host.Outcome.next.inj (hu.symm.trans h)
      rw [hframe]; exact hset
    · cases hfault.symm.trans h
  | skp x | sknp x =>
    simp only [exec, execSkp, execSknp] at h
    obtain ⟨_, hgo⟩ := withKey_eq_next h
    obtain rfl := Host.Outcome.next.inj hgo
    exact hset
  | ldB x | storeRegs x | loadRegs x =>
    simp only [exec, execLdB, execStoreRegs, execLoadRegs] at h
    obtain rfl := Host.Outcome.next.inj (withRange_eq_next h)
    exact hset
  | ldKey x =>
    obtain rfl := Host.Outcome.next.inj h
    split <;> exact hset
  | _ => obtain rfl := Host.Outcome.next.inj h; exact hset

/-- A Step that goes on keeps a set changed flag: neither the snapshot nor the tick touches it. -/
theorem step_keeps_changed {s t : State} (h : step s = .next t) (hset : s.block.CHG = true) : t.block.CHG = true := by
  obtain ⟨i, u, -, hexec, rfl⟩ := step_eq_next_iff.mp h
  exact exec_keeps_changed (t := u) hexec hset

/-- A key event leaves the block (R194). -/
theorem keyEvent_block {k : Nat} {pressed : Bool} {s t : State} (h : keyEvent k pressed s = .next t) : t.block = s.block := by
  unfold keyEvent at h
  split at h
  · obtain rfl := Host.Outcome.next.inj h; rfl
  · cases h

/-- Of the host's operations only CHG_CLEAR and initialization write the block. -/
theorem hostStep_block {op : HostOp} {s t : State} (h : hostStep op s = .next t) :
    t.block = s.block ∨ op = .chgClear ∨ ∃ chg, op = .init chg := by
  cases op with
  | init chg => exact .inr (.inr ⟨chg, rfl⟩)
  | load bytes =>
    simp only [hostStep] at h
    split at h
    · cases h
    · obtain rfl := Host.Outcome.next.inj h; exact .inl rfl
  | press k | release k => exact .inl (keyEvent_block h)
  | chgClear => exact .inr (.inl rfl)

/-- Settles O58: CHG_CLEAR is its one write; a Step keeps a set flag, and so does a host operation that leaves the block. -/
theorem onlyTheRendererClearsTheChangedFlag : Obligations.OnlyTheRendererClearsTheChangedFlag := by
  intro s
  refine ⟨⟨_, rfl, Block.CHG_chgClear _, rfl⟩, fun _ => step_keeps_changed, ?host⟩
  case host =>
    intro op t hop hset hclear
    refine (hostStep_block hop).resolve_left fun hblock => ?_
    simp [hblock, hset] at hclear

end Sys2Proof.Machine

namespace Sys2Proof

/-! ### Decoding what was encoded (30_encoding.md R72 to R79) -/

/-- The word of a well-formed instruction decodes to it. Each constructor's word is a packed one, whose fields are known; of DRW the
row count survives because it fits in its nibble. -/
theorem decodeWord_encode {i : Instr} (h : i.wellFormed = true) : decodeWord (encode i) = .ok i := by
  cases i with
  | drw x y n =>
    have hn : n ≤ 15 := of_decide_eq_true h
    have hmod : n % 16 = n := Nat.mod_eq_of_lt (by omega)
    simp [encode, decodeWord, hmod]
  | cls | ret => simp [encode, decodeWord, decodeGroup0]
  | ldReg x y | orReg x y | andReg x y | xorReg x y | addReg x y | sub x y | shr x y | subn x y | shl x y =>
    simp [encode, decodeWord, decodeGroup8]
  | skp x | sknp x => simp [encode, decodeWord, decodeGroupE]
  | ldFromDT x | ldKey x | ldDT x | ldST x | addI x | ldF x | ldB x | storeRegs x | loadRegs x =>
    simp [encode, decodeWord, decodeGroupF]
  | jp nnn | call nnn | ldI nnn => simp [encode, decodeWord]
  | seImm x nn | sneImm x nn | ldImm x nn | addImm x nn | rnd x nn => simp [encode, decodeWord]
  | seReg x y | sneReg x y => simp [encode, decodeWord]

/-- Settles O5: the word decodes to the instruction, and its two bytes in memory order join to that word. -/
theorem decodeGivesBackEncoded : Obligations.DecodeGivesBackEncoded := by
  intro i h
  refine ⟨decodeWord_encode h, fun rest => ?_⟩
  simp only [decodeBytes, joinBytes_highByte_lowByte, decodeWord_encode h]

end Sys2Proof

namespace Sys2Proof

/-! ### What a word that selects a row decodes to (R76) -/

/-- A row that examines the selector nibble alone fixes it. -/
theorem T_val_of_selects_F000 {b w : Word} (h : (OpcodeRow.mk 0xF000 b).selects w = true) :
    (fields w).T.val = b.toNat / 4096 := by
  have := (selects_F000 b w).mp h
  rw [fields_T_val]; omega

/-- A row that examines the selector nibble and the low byte fixes both. -/
theorem T_NN_of_selects_F0FF {b w : Word} (h : (OpcodeRow.mk 0xF0FF b).selects w = true) :
    (fields w).T.val = b.toNat / 4096 ∧ (fields w).NN = b.setWidth 8 := by
  have := (selects_F0FF b w).mp h
  rw [fields_T_val, fields_NN_eq_iff, BitVec.toNat_setWidth]; omega

/-- A row that examines the selector nibble and the low nibble fixes both. -/
theorem T_N_of_selects_F00F {b w : Word} (h : (OpcodeRow.mk 0xF00F b).selects w = true) :
    (fields w).T.val = b.toNat / 4096 ∧ (fields w).N.val = b.toNat % 16 := by
  have := (selects_F00F b w).mp h
  rw [fields_T_val, fields_N_val]; omega

/-- A word that selects an instruction's row decodes to an instruction of that row. -/
theorem decodeWord_of_selects_row {j : Instr} {w : Word} (h : j.row.selects w = true) :
    ∃ i, decodeWord w = .ok i ∧ i.row = j.row := by
  cases j with
  | cls | ret =>
    obtain ⟨hT, hNN⟩ := T_NN_of_selects_F0FF h
    simp [decodeWord, decodeGroup0, hT, hNN, Instr.row]
  | skp x | sknp x =>
    obtain ⟨hT, hNN⟩ := T_NN_of_selects_F0FF h
    simp [decodeWord, decodeGroupE, hT, hNN, Instr.row]
  | ldFromDT x | ldKey x | ldDT x | ldST x | addI x | ldF x | ldB x | storeRegs x | loadRegs x =>
    obtain ⟨hT, hNN⟩ := T_NN_of_selects_F0FF h
    simp [decodeWord, decodeGroupF, hT, hNN, Instr.row]
  | ldReg x y | orReg x y | andReg x y | xorReg x y | addReg x y | sub x y | shr x y | subn x y | shl x y =>
    obtain ⟨hT, hN⟩ := T_N_of_selects_F00F h
    simp [decodeWord, decodeGroup8, hT, hN, Instr.row]
  | _ =>
    have hT := T_val_of_selects_F000 h
    simp [decodeWord, hT, Instr.row]

end Sys2Proof

namespace Sys2Proof

/-! ### The canonical word of a decoded instruction (R77) -/

/-- The bits of its word that an instruction's encoding keeps: all but those that R77 says are ignored. -/
def Instr.keptBits : Instr → Word
  | .cls | .ret => 0xF0FF
  | .seReg _ _ | .sneReg _ _ => 0xFFF0
  | _ => 0xFFFF

/-- What the decoder's answer says of the word: the instruction is well-formed, and its canonical word is the word itself but for
the ignored bits. -/
def Canonical (w : Word) (i : Instr) : Prop := i.wellFormed = true ∧ encode i = w &&& i.keptBits

theorem and_FFFF (w : Word) : w &&& 0xFFFF = w := BitVec.and_allOnes

section packedFields
variable {w : Word} {t : Fin 16} (hT : (fields w).T.val = t.val)
include hT

/-- R73 for a known selector: the address view rebuilds the word. -/
theorem packAddr_of_T : packAddr t (fields w).NNN = w &&& 0xFFFF := by
  rw [and_FFFF, ← BitVec.toNat_inj, toNat_packAddr, ← hT]
  exact (fieldsRebuildTheWord w).2.2.symm

theorem packByte_of_T : packByte t (fields w).X (fields w).NN = w &&& 0xFFFF := by
  rw [and_FFFF, ← BitVec.toNat_inj, toNat_packByte, ← hT]
  exact (fieldsRebuildTheWord w).2.1.symm

theorem packByte_of_T_NN {nn : Byte} (hNN : (fields w).NN = nn) : packByte t (fields w).X nn = w &&& 0xFFFF :=
  hNN ▸ packByte_of_T hT

theorem packNibbles_of_T_N {n : Fin 16} (hN : (fields w).N.val = n.val) :
    packNibbles t (fields w).X (fields w).Y n = w &&& 0xFFFF := by
  rw [and_FFFF, ← BitVec.toNat_inj, toNat_packNibbles, ← hT, ← hN]
  exact (fieldsRebuildTheWord w).1.symm

/-- Bits 11..8 cleared (R77, 00E0 and 00EE). -/
theorem packByte_zero_of_T_NN {nn : Byte} (hNN : (fields w).NN = nn) : packByte t 0 nn = w &&& 0xF0FF := by
  have hmask : (w &&& 0xF0FF).toNat = _ := toNat_and_F0FF w
  rw [← BitVec.toNat_inj, toNat_packByte, hmask, ← hT, ← hNN, fields_T_val, fields_NN_toNat, Fin.val_zero]; omega

/-- The low nibble cleared (R77, 5XY0 and 9XY0). -/
theorem packNibbles_zero_of_T : packNibbles t (fields w).X (fields w).Y 0 = w &&& 0xFFF0 := by
  have hmask : (w &&& 0xFFF0).toNat = _ := toNat_and_FFF0 w
  rw [← BitVec.toNat_inj, toNat_packNibbles, hmask, ← hT, fields_T_val, fields_X_val, fields_Y_val, Fin.val_zero]; omega

end packedFields

section groups
variable {w : Word} {i : Instr}

theorem canonical_of_decodeGroup0 (hT : (fields w).T.val = 0x0) (h : decodeGroup0 (fields w) = .ok i) : Canonical w i := by
  unfold decodeGroup0 at h
  split at h <;> cases h
  all_goals exact ⟨rfl, packByte_zero_of_T_NN hT ‹_›⟩

theorem canonical_of_decodeGroup8 (hT : (fields w).T.val = 0x8) (h : decodeGroup8 (fields w) = .ok i) : Canonical w i := by
  unfold decodeGroup8 at h
  split at h <;> cases h
  all_goals exact ⟨rfl, packNibbles_of_T_N hT ‹_›⟩

theorem canonical_of_decodeGroupE (hT : (fields w).T.val = 0xE) (h : decodeGroupE (fields w) = .ok i) : Canonical w i := by
  unfold decodeGroupE at h
  split at h <;> cases h
  all_goals exact ⟨rfl, packByte_of_T_NN hT ‹_›⟩

theorem canonical_of_decodeGroupF (hT : (fields w).T.val = 0xF) (h : decodeGroupF (fields w) = .ok i) : Canonical w i := by
  unfold decodeGroupF at h
  split at h <;> cases h
  all_goals exact ⟨rfl, packByte_of_T_NN hT ‹_›⟩

/-- The decoder, group by group: its answer's fields are the word's, so encoding them packs the word again. -/
theorem canonical_of_decodeWord (h : decodeWord w = .ok i) : Canonical w i := by
  simp only [decodeWord] at h
  split at h
  case h_1 hT => exact canonical_of_decodeGroup0 hT h
  case h_9 hT => exact canonical_of_decodeGroup8 hT h
  case h_14 hT => exact canonical_of_decodeGroupE hT h
  case h_15 hT => exact canonical_of_decodeGroupF hT h
  case h_6 hT | h_10 hT => cases h; exact ⟨rfl, packNibbles_zero_of_T hT⟩
  case h_2 hT | h_3 hT | h_11 hT => cases h; exact ⟨rfl, packAddr_of_T hT⟩
  case h_13 hT =>
    cases h
    have hn : (fields w).N.val ≤ 15 := by omega
    exact ⟨decide_eq_true hn, packNibbles_of_T_N hT (by simp)⟩
  case h_16 => cases h
  all_goals rename_i hT; cases h; exact ⟨rfl, packByte_of_T hT⟩

end groups

/-- Settles O6: the canonical word in full, with the mask of ignored bits read off for each form. -/
theorem encodeGivesBackDecoded : Obligations.EncodeGivesBackDecoded := by
  intro w i h
  obtain ⟨hwf, henc⟩ := canonical_of_decodeWord h
  refine ⟨hwf, ?_⟩
  cases i with
  | cls | ret => exact henc
  | seReg x y | sneReg x y => exact henc
  | _ => exact henc.trans (and_FFFF w)

/-! ### The opcode map (R76) -/

/-- The canonical word of every instruction selects its row: the constructors' lemmas together. -/
theorem selects_row_encode (i : Instr) : i.row.selects (encode i) = true := by
  open Laws.EncodeInRow in
  cases i with
  | cls => exact cls
  | ret => exact ret
  | jp nnn => exact jp nnn
  | call nnn => exact call nnn
  | seImm x nn => exact seImm x nn
  | sneImm x nn => exact sneImm x nn
  | seReg x y => exact seReg x y
  | ldImm x nn => exact ldImm x nn
  | addImm x nn => exact addImm x nn
  | ldReg x y => exact ldReg x y
  | orReg x y => exact orReg x y
  | andReg x y => exact andReg x y
  | xorReg x y => exact xorReg x y
  | addReg x y => exact addReg x y
  | sub x y => exact sub x y
  | shr x y => exact shr x y
  | subn x y => exact subn x y
  | shl x y => exact shl x y
  | sneReg x y => exact sneReg x y
  | ldI nnn => exact ldI nnn
  | rnd x nn => exact rnd x nn
  | drw x y n => exact drw x y n
  | skp x => exact skp x
  | sknp x => exact sknp x
  | ldFromDT x => exact ldFromDT x
  | ldKey x => exact ldKey x
  | ldDT x => exact ldDT x
  | ldST x => exact ldST x
  | addI x => exact addI x
  | ldF x => exact ldF x
  | ldB x => exact ldB x
  | storeRegs x => exact storeRegs x
  | loadRegs x => exact loadRegs x

/-- No row examines a bit that its instruction's encoding drops (R77). -/
theorem keptBits_and_mask (i : Instr) : i.keptBits &&& i.row.mask = i.row.mask := by
  have hlow : (0xFFF0 &&& 0xF000 : Word) = 0xF000 := by decide
  cases i with
  | cls | ret => decide
  | seReg x y | sneReg x y => exact hlow
  | _ => exact BitVec.allOnes_and

/-- A word decodes to an instruction of a row it selects: the row sees the same bits in the word and in the canonical word. -/
theorem selects_row_of_decodeWord {w : Word} {i : Instr} (h : decodeWord w = .ok i) : i.row.selects w = true := by
  obtain ⟨-, henc⟩ := canonical_of_decodeWord h
  have hsel := selects_row_encode i
  rwa [OpcodeRow.selects, henc, BitVec.and_assoc, keptBits_and_mask] at hsel

/-- An instruction's row does not depend on its operands, so the map's 33 forms give it. -/
theorem row_mem_opcodeTable (i : Instr) : i.row ∈ opcodeTable := by
  cases i <;> simp [opcodeTable, instrForms, Instr.row]

/-- A row of the map is an instruction's row. -/
theorem exists_row_eq {r : OpcodeRow} (h : r ∈ opcodeTable) : ∃ j : Instr, j.row = r := by
  obtain ⟨j, -, hj⟩ := List.mem_map.mp h
  exact ⟨j, hj⟩

/-- A word that selects a row of the map decodes to an instruction of that row. -/
theorem decodeWord_of_selects {w : Word} {r : OpcodeRow} (hr : r ∈ opcodeTable) (h : r.selects w = true) :
    ∃ i, decodeWord w = .ok i ∧ i.row = r := by
  obtain ⟨j, rfl⟩ := exists_row_eq hr
  exact decodeWord_of_selects_row h

/-- Settles O3: a row that a word selects is the row of the instruction it decodes to, so there is at most one. -/
theorem decoderFollowsOpcodeMap : Obligations.DecoderFollowsOpcodeMap := by
  refine ⟨rfl, fun w r hr q hq hrw hqw => ?one, fun w => ⟨?some, ?ok⟩,
    fun w i h => ⟨row_mem_opcodeTable i, selects_row_of_decodeWord h⟩⟩
  case one =>
    obtain ⟨i, hi, rfl⟩ := decodeWord_of_selects hr hrw
    obtain ⟨j, hj, rfl⟩ := decodeWord_of_selects hq hqw
    cases hi.symm.trans hj
    rfl
  case some =>
    rintro ⟨i, hi⟩
    exact ⟨i.row, row_mem_opcodeTable i, selects_row_of_decodeWord hi⟩
  case ok =>
    rintro ⟨r, hr, hrw⟩
    obtain ⟨i, hi, -⟩ := decodeWord_of_selects hr hrw
    exact ⟨i, hi⟩

end Sys2Proof

namespace Sys2Proof

/-- The decoder names the word it rejects. -/
theorem eq_invalidOpcode_of_decodeWord {w : Word} {e : DecodeError} (h : decodeWord w = .error e) : e = .invalidOpcode w := by
  simp only [decodeWord, decodeGroup0, decodeGroup8, decodeGroupE, decodeGroupF] at h
  split at h
  case h_1 | h_9 | h_14 | h_15 => split at h <;> cases h; rfl
  case h_16 => cases h; rfl
  all_goals cases h

/-- A word is rejected exactly when it selects no row (R78, R231). -/
theorem decodeWord_eq_error_iff {w : Word} :
    decodeWord w = .error (.invalidOpcode w) ↔ ∀ r ∈ opcodeTable, r.selects w = false := by
  constructor
  · intro h r hr
    by_contra hsel
    obtain ⟨i, hi, -⟩ := decodeWord_of_selects hr (by simpa using hsel)
    cases hi.symm.trans h
  · intro h
    cases hw : decodeWord w with
    | error e => rw [eq_invalidOpcode_of_decodeWord hw]
    | ok i =>
      have hsel := selects_row_of_decodeWord hw
      rw [h _ (row_mem_opcodeTable i)] at hsel
      cases hsel

/-- R78's five sets, by selector nibble, low byte and low nibble. -/
def Unassigned (w : Word) : Prop :=
  (w.toNat / 4096 = 0x0 ∧ w.toNat % 256 ∉ [0xE0, 0xEE]) ∨
    (w.toNat / 4096 = 0x8 ∧ w.toNat % 16 ∈ [0x8, 0x9, 0xA, 0xB, 0xC, 0xD, 0xF]) ∨
    w.toNat / 4096 = 0xB ∨
    (w.toNat / 4096 = 0xE ∧ w.toNat % 256 ∉ [0x9E, 0xA1]) ∨
    (w.toNat / 4096 = 0xF ∧ w.toNat % 256 ∉ [0x07, 0x0A, 0x15, 0x18, 0x1E, 0x29, 0x33, 0x55, 0x65])

theorem unassigned_iff {w : Word} : Unassigned w ↔ ∀ r ∈ opcodeTable, r.selects w = false := by
  have hlt : w.toNat / 4096 < 16 := by omega
  have hN : w.toNat % 16 < 16 := by omega
  have hNN : w.toNat % 256 < 256 := by omega
  simp only [Unassigned, opcodeTable, instrForms, Instr.row, List.flatten_cons, List.flatten_nil, List.cons_append, List.nil_append,
    List.map_cons, List.map_nil, List.forall_mem_cons, List.not_mem_nil, ← Bool.not_eq_true, selects_F000, selects_F00F, selects_F0FF]
  generalize w.toNat / 4096 = t at *
  generalize w.toNat % 256 = b at *
  generalize w.toNat % 16 = n at *
  interval_cases t <;> simp
  all_goals omega

/-- Settles O4: the five sets are the words that select no row, and the decoder rejects exactly those. -/
theorem invalidWordsAreExactlyThese : Obligations.InvalidWordsAreExactlyThese := by
  intro w
  refine ⟨fun h => decodeWord_eq_error_iff.mpr (unassigned_iff.mp h), fun h => ?_⟩
  cases hw : decodeWord w with
  | ok i => exact ⟨i, rfl⟩
  | error e =>
    rw [eq_invalidOpcode_of_decodeWord hw] at hw
    exact absurd (unassigned_iff.mpr (decodeWord_eq_error_iff.mp hw)) h

end Sys2Proof

namespace Sys2Proof.Machine

/-! ### The execute phase as one check and one effect (60_exceptions.md R239)

Every instruction checks at most one thing before it writes. `State.check` is that check, `State.effect` what the instruction does
once it is passed; `exec_eq` ties the two to `exec`, and every claim about all instructions goes through them. -/

/-- The error of the instruction's one check, if it raises. -/
def State.check (s : State) : Instr → Option Fault
  | .ret => if s.sp.val = 0 then some .stackUnderflow else none
  | .call _ => if s.sp.val = 16 then some .stackOverflow else none
  | .drw _ _ n => (offending s.I.toNat n).map .outOfRangeAccess
  | .ldB _ => (offending s.I.toNat 3).map .outOfRangeAccess
  | .storeRegs x | .loadRegs x => (offending s.I.toNat (x.val + 1)).map .outOfRangeAccess
  | .skp x | .sknp x => if 15 < (s.reg x).toNat then some (.outOfRangeAccess (s.reg x).toNat) else none
  | _ => none

/-- `key[k]` for a byte that passed the key check. -/
def State.keyOf (s : State) (k : Byte) : Bool := s.keyAt (Fin.ofNat 16 k.toNat)

/-- What DRW does with the answer of the block's command DRAW (R154, R169). -/
def State.withDraw (s : State) (answer : Block × Bool) : State :=
  ((s.setBlock answer.1).setReg VF (flagByte answer.2)).advance

/-- What the instruction does when its check passes. Instructions without a check do what `exec` answers. -/
def State.effect (s : State) : Instr → State
  | .ret => { s with sp := s.sp - 1, pc := s.stack[s.sp.val - 1]'(by omega) + 2 }
  | .call nnn => { s with stack := s.stack.setIfInBounds s.sp.val s.pc, sp := s.sp + 1, pc := addrOperand nnn }
  | .drw x y n => s.withDraw (s.block.draw (s.reg x) (s.reg y) (s.spriteRows n))
  | .ldB x => (s.setMem (s.mem.writeBlock s.I.toNat (bcdDigits (s.reg x)))).advance
  | .storeRegs x => (s.setMem (s.mem.writeBlock s.I.toNat (s.regsUpTo x))).advance
  | .loadRegs x => (s.setRegs (loadBlock s.mem s.I.toNat (x.val + 1) s.V)).advance
  | .skp x => s.skipIf (s.keyOf (s.reg x))
  | .sknp x => s.skipIf (!s.keyOf (s.reg x))
  | .ldKey _ => s.setPc (if s.anyKey then s.pc + 2 else s.pc)
  | i => match exec i s with
    | .next t => t
    | _ => s

/-- A range check in the form of `State.check`. -/
theorem withRange_eq (first count : Nat) (t : State) :
    withRange first count (.next t) = match (offending first count).map Fault.outOfRangeAccess with
      | some f => .fault f
      | none => .next t := by
  unfold withRange
  cases offending first count <;> rfl

theorem withKey_eq (s : State) (k : Byte) (go : Bool → State) :
    withKey k s (fun pressed => .next (go pressed)) =
      match if 15 < k.toNat then some (Fault.outOfRangeAccess k.toNat) else none with
      | some f => .fault f
      | none => .next (go (s.keyOf k)) := by
  by_cases hk : 15 < k.toNat
  · simp [withKey_raise s (by omega : 16 ≤ k.toNat), hk]
  · have hidx : (⟨k.toNat, by omega⟩ : KeyIdx) = Fin.ofNat 16 k.toNat := Fin.ext (Nat.mod_eq_of_lt (by omega)).symm
    rw [withKey_ok s (by omega), hidx, if_neg hk]
    rfl

theorem execCall_eq (s : State) (nnn : BitVec 12) :
    execCall nnn s = match s.check (.call nnn) with
      | some f => .fault f
      | none => .next (s.effect (.call nnn)) := by
  rcases execCall_cases s nnn with ⟨hsp, t, ht, htsp, hstack, hpc, hframe⟩ | ⟨hsp, ht⟩
  · have hcount : t.sp = s.sp + 1 := by
      apply Fin.ext
      rw [htsp, Fin.val_add_one_of_lt (Fin.lt_def.mpr hsp)]
    rw [ht, hframe, hstack, hpc, hcount]
    simp [State.check, State.effect, hsp.ne, Vector.setIfInBounds, Array.setIfInBounds, hsp]
  · simp [ht, State.check, hsp]

theorem execRet_eq (s : State) :
    execRet s = match s.check .ret with
      | some f => .fault f
      | none => .next (s.effect .ret) := by
  rcases execRet_cases s with ⟨hsp, t, ht, htsp, hpc, hframe⟩ | ⟨hsp, ht⟩
  · have hcount : t.sp = s.sp - 1 := by
      apply Fin.ext
      rw [htsp, Fin.val_sub_one_of_ne_zero (Fin.pos_iff_ne_zero.mp hsp)]
    rw [ht, hframe, hpc, hcount]
    simp [State.check, State.effect, hsp.ne']
  · simp [ht, State.check, hsp]

/-- The execute phase of every instruction: its check, then its effect. -/
theorem exec_eq (i : Instr) (s : State) :
    exec i s = match s.check i with
      | some f => .fault f
      | none => .next (s.effect i) := by
  cases i with
  | ret => exact execRet_eq s
  | call nnn => exact execCall_eq s nnn
  | drw x y n => exact withRange_eq _ _ _
  | ldB x => exact withRange_eq _ _ _
  | storeRegs x | loadRegs x => exact withRange_eq _ _ _
  | skp x => exact withKey_eq s (s.reg x) s.skipIf
  | sknp x => exact withKey_eq s (s.reg x) (fun pressed => s.skipIf (!pressed))
  | ldKey x =>
    have : (if s.anyKey then s.advance else s) = s.effect (.ldKey x) := by
      simp only [State.effect]; split <;> rfl
    exact congrArg _ this
  | _ => rfl

theorem exec_eq_next_iff {i : Instr} {s t : State} : exec i s = .next t ↔ s.check i = none ∧ s.effect i = t := by
  rw [exec_eq]; cases s.check i <;> simp

theorem exec_eq_fault_iff {i : Instr} {s : State} {f : Fault} : exec i s = .fault f ↔ s.check i = some f := by
  rw [exec_eq]; cases s.check i <;> simp

theorem exec_ne_refused (i : Instr) (s : State) (r : Refusal) : exec i s ≠ .refused r := by
  rw [exec_eq]; cases s.check i <;> simp

end Sys2Proof.Machine

namespace Sys2Proof.Machine

/-! ### What the effect of an instruction does to each piece of state -/

section effect
variable (s : State) (i : Instr)

/-- R57, R59: the two instructions that store. -/
theorem State.mem_effect : (s.effect i).mem = match i with
    | .ldB x => s.mem.writeBlock s.I.toNat (bcdDigits (s.reg x))
    | .storeRegs x => s.mem.writeBlock s.I.toNat (s.regsUpTo x)
    | _ => s.mem := by
  cases i <;> rfl

/-- R29, R30, R210: the four instructions that command the block to change. -/
theorem State.block_effect : (s.effect i).block = match i with
    | .cls => s.block.clear
    | .drw x y n => (s.block.draw (s.reg x) (s.reg y) (s.spriteRows n)).1
    | .ldDT x => s.block.dtWrite (s.reg x)
    | .ldST x => s.block.stWrite (s.reg x)
    | _ => s.block := by
  cases i <;> rfl

theorem State.I_effect : (s.effect i).I = match i with
    | .ldI nnn => addrOperand nnn
    | .addI x => BitVec.ofNat 16 (indexSum s.I (s.reg x))
    | .ldF x => glyphAddr (s.reg x)
    | _ => s.I := by
  cases i <;> rfl

theorem State.draws_effect : (s.effect i).draws = match i with
    | .rnd _ _ => s.draws + 1
    | _ => s.draws := by
  cases i <;> rfl

theorem State.stack_effect : (s.effect i).stack = match i with
    | .call _ => s.stack.setIfInBounds s.sp.val s.pc
    | _ => s.stack := by
  cases i <;> rfl

theorem State.sp_effect : (s.effect i).sp = match i with
    | .call _ => s.sp + 1
    | .ret => s.sp - 1
    | _ => s.sp := by
  cases i <;> rfl

/-- R28, R36: no instruction writes the keypad. -/
theorem State.keyState_effect : (s.effect i).keyState = s.keyState := by
  cases i <;> rfl

theorem State.key_effect : (s.effect i).key = s.key := by
  cases i <;> rfl

variable {i}

/-- R27: only CALL and RET move the stack pointer. -/
theorem State.sp_effect_of_ne (hcall : ∀ nnn, i ≠ .call nnn) (hret : i ≠ .ret) : (s.effect i).sp = s.sp := by
  rw [s.sp_effect]
  split
  · exact absurd rfl (hcall _)
  · exact absurd rfl hret
  · rfl

theorem State.stack_effect_of_ne (hcall : ∀ nnn, i ≠ .call nnn) : (s.effect i).stack = s.stack := by
  rw [s.stack_effect]
  split
  · exact absurd rfl (hcall _)
  · rfl

theorem State.I_effect_of_ne (hldI : ∀ nnn, i ≠ .ldI nnn) (haddI : ∀ x, i ≠ .addI x) (hldF : ∀ x, i ≠ .ldF x) :
    (s.effect i).I = s.I := by
  rw [s.I_effect]
  split
  · exact absurd rfl (hldI _)
  · exact absurd rfl (haddI _)
  · exact absurd rfl (hldF _)
  · rfl

theorem State.draws_effect_of_ne (hrnd : ∀ x nn, i ≠ .rnd x nn) : (s.effect i).draws = s.draws := by
  rw [s.draws_effect]
  split
  · exact absurd rfl (hrnd _ _)
  · rfl

/-- R29, R30: of the block's commands only CLEAR and DRAW write the display. -/
theorem State.sameDisplay_effect (hcls : i ≠ .cls) (hdrw : ∀ x y n, i ≠ .drw x y n) : SameDisplay s (s.effect i) := by
  rw [SameDisplay, s.block_effect]
  split
  · exact absurd rfl hcls
  · exact absurd rfl (hdrw _ _ _)
  all_goals exact ⟨fun _ _ => rfl, rfl⟩

/-- R210: each timer has one instruction that writes it. -/
theorem State.DT_effect (hdt : ∀ x, i ≠ .ldDT x) : (s.effect i).block.DT = s.block.DT := by
  rw [s.block_effect]
  split
  case h_3 => exact absurd rfl (hdt _)
  all_goals rfl

theorem State.ST_effect (hst : ∀ x, i ≠ .ldST x) : (s.effect i).block.ST = s.block.ST := by
  rw [s.block_effect]
  split
  case h_4 => exact absurd rfl (hst _)
  all_goals rfl

variable (i)

/-- R101 to R105, R192: the program counter of every form. -/
theorem State.pc_effect : (s.effect i).pc = match i with
    | .jp nnn | .call nnn => addrOperand nnn
    | .ret => s.stack[s.sp.val - 1]'(by omega) + 2
    | .seImm x nn => if s.reg x == nn then s.pc + 4 else s.pc + 2
    | .sneImm x nn => if s.reg x != nn then s.pc + 4 else s.pc + 2
    | .seReg x y => if s.reg x == s.reg y then s.pc + 4 else s.pc + 2
    | .sneReg x y => if s.reg x != s.reg y then s.pc + 4 else s.pc + 2
    | .skp x => if s.keyOf (s.reg x) then s.pc + 4 else s.pc + 2
    | .sknp x => if !s.keyOf (s.reg x) then s.pc + 4 else s.pc + 2
    | .ldKey _ => if s.anyKey then s.pc + 2 else s.pc
    | _ => s.pc + 2 := by
  cases i <;> rfl

end effect

/-- A write to one register and then to VF leaves the others (R21, R132). -/
theorem sameRegsBut_writeWithFlag (s : State) (x : RegIdx) (v f : Byte) : SameRegsBut [x, VF] s (s.writeWithFlag x v f) := by
  intro r hr
  obtain ⟨hx, hVF⟩ : r ≠ x ∧ r ≠ VF := by simpa using hr
  simp [hx, hVF]

/-- A block load leaves the registers above its last one (R219). -/
theorem sameRegsBut_loadBlock (s : State) (x : RegIdx) :
    SameRegsBut (registersWritten (.loadRegs x)) s (s.effect (.loadRegs x)) := by
  intro r hr
  have hgt : ¬ r.val < x.val + 1 := fun h => hr (by simpa [registersWritten] using Nat.le_of_lt_succ h)
  have := getElem_loadBlock s.mem s.I.toNat (x.val + 1) s.V r
  rwa [if_neg hgt] at this

/-- R21: the effect writes no register outside the instruction's list. -/
theorem sameRegsBut_effect (s : State) (i : Instr) : SameRegsBut (registersWritten i) s (s.effect i) := by
  cases i with
  | ldImm x nn | addImm x nn | rnd x nn => exact sameRegsBut_setReg s x _
  | ldReg x y => exact sameRegsBut_setReg s x _
  | ldFromDT x => exact sameRegsBut_setReg s x _
  | orReg x y | andReg x y | xorReg x y | addReg x y | sub x y | shr x y | subn x y | shl x y =>
    exact sameRegsBut_writeWithFlag s x _ _
  | drw x y n => exact sameRegsBut_setReg (s.setBlock _) VF _
  | addI x => exact sameRegsBut_setReg (s.setI _) VF _
  | loadRegs x => exact sameRegsBut_loadBlock s x
  | _ => exact fun _ _ => rfl

/-! ### Who writes what -/

/-- Settles O47: the effect's frame on the registers. -/
theorem onlyDestinationsAndFlagsAreWritten : Obligations.OnlyDestinationsAndFlagsAreWritten := by
  intro i s t h
  obtain ⟨-, rfl⟩ := exec_eq_next_iff.mp h
  exact sameRegsBut_effect s i

/-- Settles O48: a block write changes its own range only, and the other forms do not write memory. -/
theorem onlyBcdAndBlockStoreWriteMemory : Obligations.OnlyBcdAndBlockStoreWriteMemory := by
  intro i s t h
  obtain ⟨-, rfl⟩ := exec_eq_next_iff.mp h
  have hmem := s.mem_effect i
  cases i with
  | ldB x => exact fun a ha => hmem ▸ Memory.read_writeBlock_outside _ _ (by simpa using ha)
  | storeRegs x => exact fun a ha => hmem ▸ Memory.read_writeBlock_outside _ _ (by simpa using ha)
  | _ => exact fun a => hmem ▸ rfl

/-- Settles O49: the effect's equations for the stack, the index register, the keypad and the draw counter, off the named forms. -/
theorem onlyNamedInstructionsWriteStackAndIndex : Obligations.OnlyNamedInstructionsWriteStackAndIndex := by
  intro i s t h
  obtain ⟨-, rfl⟩ := exec_eq_next_iff.mp h
  exact ⟨fun hcall hret => ⟨s.sp_effect_of_ne hcall hret, fun k => congrArg (fun v => v[k]) (s.stack_effect_of_ne hcall)⟩,
    s.I_effect_of_ne, ⟨s.keyState_effect i, s.key_effect i⟩, s.draws_effect_of_ne⟩

/-- Settles O50: of the block's commands that an instruction gives, CLEAR and DRAW write the display and never clear the flag, and
each timer has its one write. -/
theorem onlyNamedInstructionsWriteTheBlock : Obligations.OnlyNamedInstructionsWriteTheBlock := by
  intro i s t h
  have hchanged := exec_keeps_changed h
  obtain ⟨-, rfl⟩ := exec_eq_next_iff.mp h
  exact ⟨s.sameDisplay_effect, hchanged, s.DT_effect, s.ST_effect⟩

theorem State.pc_skipIf_cases (s : State) (c : Bool) : (s.skipIf c).pc = s.pc + 4 ∨ (s.skipIf c).pc = s.pc + 2 := by
  cases c
  · exact .inr rfl
  · exact .inl rfl

theorem toNat_addrOperand (nnn : BitVec 12) : (addrOperand nnn).toNat = nnn.toNat := by
  simp [addrOperand]; omega

/-- Settles O46: the effect's program counter, read off form by form. -/
theorem everyInstructionsEffectOnPc : Obligations.EveryInstructionsEffectOnPc := by
  intro i s t h
  obtain ⟨-, rfl⟩ := exec_eq_next_iff.mp h
  have hpc := s.pc_effect i
  cases i with
  | jp nnn | call nnn => exact hpc ▸ toNat_addrOperand nnn
  | ret =>
    intro k hk
    have hidx : s.sp.val - 1 = k.val := by omega
    simpa [hidx] using hpc
  | seImm x nn | sneImm x nn => exact s.pc_skipIf_cases _
  | seReg x y | sneReg x y => exact s.pc_skipIf_cases _
  | skp x | sknp x => exact s.pc_skipIf_cases _
  | ldKey x =>
    refine ⟨fun hsome => ?_, fun hnone => ?_⟩
    · rw [hpc]; simp [s.anyKey_iff.mpr hsome]
    · have : ¬ s.anyKey = true := by simp [s.anyKey_iff, hnone]
      exact hpc.trans (if_neg this)
  | _ => exact hpc

end Sys2Proof.Machine

namespace Sys2Proof.Machine

/-! ### The errors of a Step (60_exceptions.md) -/

section errors
variable {s u : State} {f : Fault}

theorem State.fetch_eq_error_iff : s.fetch = .error f ↔ s.pc.toNat > 4094 ∧ f = .outOfRangeAccess (max s.pc.toNat 4096) := by
  by_cases h : s.pc.toNat ≤ 4094
  · simp [s.fetch_ok h, h]
  · simp [s.fetch_error (Nat.lt_of_not_le h), Nat.lt_of_not_le h, eq_comm]

/-- The snapshot does not enter any check. -/
theorem State.check_beginStep (i : Instr) : s.beginStep.check i = s.check i := by
  cases i <;> rfl

/-- R239 with the decoder's answer said by the opcode map: a Step raises at fetch, at decode, or by the instruction's check. -/
theorem step_eq_fault_iff_check :
    step s = .fault f ↔
      (s.pc.toNat > 4094 ∧ f = .outOfRangeAccess (max s.pc.toNat 4096)) ∨
      (∃ w, s.fetch = .ok w ∧ (∀ r ∈ opcodeTable, r.selects w = false) ∧ f = .invalidOpcode w) ∨
      ∃ i, s.executes i ∧ s.check i = some f := by
  simp only [step_eq_fault_iff, s.fetch_eq_error_iff, exec_eq_fault_iff, State.check_beginStep]
  refine or_congr_right (or_congr_left ⟨?reject, ?select⟩)
  case reject =>
    rintro ⟨w, e, hw, he, rfl⟩
    rw [eq_invalidOpcode_of_decodeWord he] at he
    exact ⟨w, hw, decodeWord_eq_error_iff.mp he, rfl⟩
  case select =>
    rintro ⟨w, hw, hsel, rfl⟩
    exact ⟨w, _, hw, decodeWord_eq_error_iff.mpr hsel, rfl⟩

/-- Two states that fetch the same word and fail the same checks raise the same errors. -/
theorem step_eq_fault_congr (hfetch : u.fetch = s.fetch) (hcheck : ∀ i, u.check i = s.check i) :
    step u = .fault f ↔ step s = .fault f := by
  simp only [step_eq_fault_iff, exec_eq_fault_iff, State.check_beginStep, State.executes, hfetch, hcheck]

theorem map_offending_eq_some {first count : Nat} :
    (offending first count).map Fault.outOfRangeAccess = some f ↔
      count ≠ 0 ∧ 4096 < first + count ∧ f = .outOfRangeAccess (max first 4096) := by
  simp only [Option.map_eq_some_iff, offending_eq_some]
  constructor
  · rintro ⟨a, ⟨hc, hr, rfl⟩, rfl⟩
    exact ⟨hc, hr, rfl⟩
  · rintro ⟨hc, hr, rfl⟩
    exact ⟨_, ⟨hc, hr, rfl⟩, rfl⟩

theorem map_offending_eq_none {first count : Nat} :
    (offending first count).map Fault.outOfRangeAccess = none ↔ count = 0 ∨ first + count ≤ 4096 := by
  rw [Option.map_eq_none_iff, offending_eq_none]

theorem State.check_call_eq_some {nnn : BitVec 12} :
    s.check (.call nnn) = some f ↔ s.sp.val = 16 ∧ f = .stackOverflow := by
  simp [State.check, eq_comm]

theorem State.check_ret_eq_some : s.check .ret = some f ↔ s.sp.val = 0 ∧ f = .stackUnderflow := by
  simp [State.check, eq_comm]

theorem State.check_drw_eq_some {x y : RegIdx} {n : Nat} : s.check (.drw x y n) = some f ↔
    1 ≤ n ∧ s.I.toNat + n - 1 > 4095 ∧ f = .outOfRangeAccess (max s.I.toNat 4096) := by
  rw [State.check, map_offending_eq_some, ← and_assoc, ← and_assoc]
  exact and_congr_left fun _ => by omega

theorem State.check_ldB_eq_some {x : RegIdx} : s.check (.ldB x) = some f ↔
    s.I.toNat + 2 > 4095 ∧ f = .outOfRangeAccess (max s.I.toNat 4096) := by
  rw [State.check, map_offending_eq_some, ← and_assoc]
  exact and_congr_left fun _ => by omega

theorem State.check_storeRegs_eq_some {x : RegIdx} : s.check (.storeRegs x) = some f ↔
    s.I.toNat + x.val > 4095 ∧ f = .outOfRangeAccess (max s.I.toNat 4096) := by
  rw [State.check, map_offending_eq_some, ← and_assoc]
  exact and_congr_left fun _ => by omega

theorem State.check_loadRegs_eq_some {x : RegIdx} : s.check (.loadRegs x) = some f ↔
    s.I.toNat + x.val > 4095 ∧ f = .outOfRangeAccess (max s.I.toNat 4096) :=
  State.check_storeRegs_eq_some

theorem State.check_skp_eq_some {x : RegIdx} : s.check (.skp x) = some f ↔
    (s.reg x).toNat > 15 ∧ f = .outOfRangeAccess (s.reg x).toNat := by
  simp [State.check, eq_comm]

theorem State.check_sknp_eq_some {x : RegIdx} : s.check (.sknp x) = some f ↔
    (s.reg x).toNat > 15 ∧ f = .outOfRangeAccess (s.reg x).toNat :=
  State.check_skp_eq_some

end errors

/-- Settles O43: fetch, decode, then each instruction with a check. -/
theorem stepRaisesExactlyInTheListedCases : Obligations.StepRaisesExactlyInTheListedCases := by
  intro s f
  rw [step_eq_fault_iff_check]
  refine or_congr_right (or_congr_right ⟨?listed, ?check⟩)
  case listed =>
    rintro ⟨i, hi, hf⟩
    cases i with
    | call nnn => exact .inl ⟨nnn, hi, State.check_call_eq_some.mp hf⟩
    | ret => exact .inr (.inl ⟨hi, State.check_ret_eq_some.mp hf⟩)
    | drw x y n => exact .inr (.inr (.inl ⟨x, y, n, hi, State.check_drw_eq_some.mp hf⟩))
    | ldB x => exact .inr (.inr (.inr (.inl ⟨x, hi, State.check_ldB_eq_some.mp hf⟩)))
    | storeRegs x => exact .inr (.inr (.inr (.inr (.inl ⟨x, .inl hi, State.check_storeRegs_eq_some.mp hf⟩))))
    | loadRegs x => exact .inr (.inr (.inr (.inr (.inl ⟨x, .inr hi, State.check_loadRegs_eq_some.mp hf⟩))))
    | skp x => exact .inr (.inr (.inr (.inr (.inr ⟨x, .inl hi, State.check_skp_eq_some.mp hf⟩))))
    | sknp x => exact .inr (.inr (.inr (.inr (.inr ⟨x, .inr hi, State.check_sknp_eq_some.mp hf⟩))))
    | _ => cases hf
  case check =>
    rintro (⟨nnn, hi, hf⟩ | ⟨hi, hf⟩ | ⟨x, y, n, hi, hf⟩ | ⟨x, hi, hf⟩ | ⟨x, hi | hi, hf⟩ | ⟨x, hi | hi, hf⟩)
    · exact ⟨_, hi, State.check_call_eq_some.mpr hf⟩
    · exact ⟨_, hi, State.check_ret_eq_some.mpr hf⟩
    · exact ⟨_, hi, State.check_drw_eq_some.mpr hf⟩
    · exact ⟨_, hi, State.check_ldB_eq_some.mpr hf⟩
    · exact ⟨_, hi, State.check_storeRegs_eq_some.mpr hf⟩
    · exact ⟨_, hi, State.check_loadRegs_eq_some.mpr hf⟩
    · exact ⟨_, hi, State.check_skp_eq_some.mpr hf⟩
    · exact ⟨_, hi, State.check_sknp_eq_some.mpr hf⟩

/-- The execute phase raises none of decode's and load's errors (R230): its checks are of the stack, of addresses and of keys. -/
theorem State.check_cases {s : State} {i : Instr} {f : Fault} (h : s.check i = some f) :
    f = .stackOverflow ∨ f = .stackUnderflow ∨ ∃ a, f = .outOfRangeAccess a := by
  cases i with
  | call nnn => exact .inl (State.check_call_eq_some.mp h).2
  | ret => exact .inr (.inl (State.check_ret_eq_some.mp h).2)
  | drw x y n => exact .inr (.inr ⟨_, (State.check_drw_eq_some.mp h).2.2⟩)
  | ldB x => exact .inr (.inr ⟨_, (State.check_ldB_eq_some.mp h).2⟩)
  | storeRegs x | loadRegs x => exact .inr (.inr ⟨_, (State.check_storeRegs_eq_some.mp h).2⟩)
  | skp x | sknp x => exact .inr (.inr ⟨_, (State.check_skp_eq_some.mp h).2⟩)
  | _ => cases h

/-- Settles O10: of the three places where a Step raises, only decode raises this error. -/
theorem unrecognizedWordRaisesInvalidOpcode : Obligations.UnrecognizedWordRaisesInvalidOpcode := by
  intro s w
  rw [step_eq_fault_iff_check]
  constructor
  · rintro (⟨-, h⟩ | ⟨v, hv, hsel, h⟩ | ⟨i, -, hf⟩)
    · cases h
    · cases h; exact ⟨hv, hsel⟩
    · rcases State.check_cases hf with h | h | ⟨a, h⟩ <;> cases h
  · rintro ⟨hw, hsel⟩
    exact .inr (.inl ⟨w, hw, hsel, rfl⟩)

theorem step_ne_refused (s : State) (r : Refusal) : step s ≠ .refused r := by
  cases hfetch : s.fetch with
  | error f => simp [step, hfetch, raise]
  | ok w =>
    cases hdec : decodeWord w with
    | error e => simp [step, hfetch, hdec, raise]
    | ok i =>
      rw [step_of_executes ⟨w, hfetch, hdec⟩, exec_eq]
      cases s.beginStep.check i <;> simp

/-- Settles O44: neither an instruction's meaning nor a Step around it answers a refusal. -/
theorem nothingIsRefused : Obligations.NothingIsRefused := ⟨exec_ne_refused, step_ne_refused⟩

/-- Key events and CHG_CLEAR leave alone what fetch and the checks read. -/
theorem hostStep_keeps_errors {op : HostOp} {s u : State}
    (hop : (∃ k, op = .press k) ∨ (∃ k, op = .release k) ∨ op = .chgClear) (h : hostStep op s = .next u) :
    u.fetch = s.fetch ∧ ∀ i, u.check i = s.check i := by
  have hkey {k : Nat} {pressed : Bool} (h : keyEvent k pressed s = .next u) :
      u.fetch = s.fetch ∧ ∀ i, u.check i = s.check i := by
    unfold keyEvent at h
    split at h
    · cases h
      exact ⟨rfl, fun i => by cases i <;> rfl⟩
    · cases h
  rcases hop with ⟨k, rfl⟩ | ⟨k, rfl⟩ | rfl
  · exact hkey h
  · exact hkey h
  · cases h
    exact ⟨rfl, fun i => by cases i <;> rfl⟩

/-- Settles O45: the driver keeps the state, and the three host moves keep all that an error comes from. -/
theorem errorsRepeatUntilReload : Obligations.ErrorsRepeatUntilReload := by
  intro s f h
  have hafter : s.afterStep = s := by rw [State.afterStep, h]
  refine ⟨hafter, hafter.symm ▸ h, fun op u hop hu => ?_⟩
  obtain ⟨hfetch, hcheck⟩ := hostStep_keeps_errors hop hu
  exact (step_eq_fault_congr hfetch hcheck).mpr h

end Sys2Proof.Machine

namespace Sys2Proof.Machine

/-! ### The invariant (10_state.md R22, R27, R35) -/

/-- An instruction's check keeps its stores inside memory, so the canonical form survives. -/
theorem State.wf_mem_effect {s : State} {i : Instr} (h : s.mem.wf) (hcheck : s.check i = none) : (s.effect i).mem.wf := by
  rw [s.mem_effect]
  cases i with
  | ldB x =>
    have hrange := map_offending_eq_none.mp hcheck
    exact Memory.wf_writeBlock h _ (by simp only [length_bcdDigits]; omega)
  | storeRegs x =>
    have hrange := map_offending_eq_none.mp hcheck
    exact Memory.wf_writeBlock h _ (by simp only [State.length_regsUpTo]; omega)
  | _ => exact h

/-- A skip from a fetchable address ends at most at 4098 (R22, R102). -/
theorem toNat_skip_le {a : Word} (h : a.toNat ≤ 4094) (c : Bool) : (if c then a + 4 else a + 2).toNat ≤ 4098 := by
  cases c
  · show (a + 2).toNat ≤ 4098
    bv_omega
  · show (a + 4).toNat ≤ 4098
    bv_omega

/-- R22: from a fetchable address, with a call stack of such addresses, no instruction takes `pc` above 4098. -/
theorem State.pc_effect_le {s : State} (hpc : s.pc.toNat ≤ 4094) (hstack : ∀ k : Fin 16, s.stack[k].toNat ≤ 4094) (i : Instr) :
    (s.effect i).pc.toNat ≤ 4098 := by
  rw [s.pc_effect]
  have hnext : (s.pc + 2).toNat ≤ 4098 := toNat_skip_le hpc false
  cases i with
  | jp nnn | call nnn =>
    show (addrOperand nnn).toNat ≤ 4098
    rw [toNat_addrOperand]; omega
  | ret => exact toNat_skip_le (hstack ⟨s.sp.val - 1, by omega⟩) false
  | seImm x nn | sneImm x nn => exact toNat_skip_le hpc _
  | seReg x y | sneReg x y => exact toNat_skip_le hpc _
  | skp x | sknp x => exact toNat_skip_le hpc _
  | ldKey x =>
    show (if s.anyKey then s.pc + 2 else s.pc).toNat ≤ 4098
    split <;> omega
  | _ => exact hnext

/-- R103, R105: only a call's own address is pushed. -/
theorem State.stack_effect_le {s : State} (hpc : s.pc.toNat ≤ 4094) (hstack : ∀ k : Fin 16, s.stack[k].toNat ≤ 4094) (i : Instr)
    (k : Fin 16) : (s.effect i).stack[k].toNat ≤ 4094 := by
  rw [s.stack_effect]
  cases i with
  | call nnn =>
    simp only [Fin.getElem_fin, Vector.getElem_setIfInBounds]
    split
    · exact hpc
    · exact hstack k
  | _ => exact hstack k

/-- A Step goes on exactly when the instruction it executes passes its check, and is then its effect between snapshot and tick. -/
theorem step_eq_next_iff_effect {s t : State} :
    step s = .next t ↔ ∃ i, s.executes i ∧ s.check i = none ∧ t = (s.beginStep.effect i).endStep := by
  simp only [step_eq_next_iff, exec_eq_next_iff, State.check_beginStep]
  constructor
  · rintro ⟨i, u, hi, ⟨hc, rfl⟩, rfl⟩
    exact ⟨i, hi, hc, rfl⟩
  · rintro ⟨i, hi, hc, rfl⟩
    exact ⟨i, _, hi, ⟨hc, rfl⟩, rfl⟩

theorem State.executes.pc_le {s : State} {i : Instr} (h : s.executes i) : s.pc.toNat ≤ 4094 := by
  obtain ⟨w, hw, -⟩ := h
  exact (s.fetch_eq_ok_iff.mp hw).1

/-- Settles O52: the Step fetched, so `pc` was at most 4094; each field of the invariant is then a fact about the effect, which the
snapshot before and the tick after leave alone. -/
theorem stepKeepsTheInvariant : Obligations.StepKeepsTheInvariant := by
  intro s t hinv h
  obtain ⟨hmem, -, hstack, -⟩ := hinv
  obtain ⟨i, hi, hcheck, rfl⟩ := step_eq_next_iff_effect.mp h
  have hpc : s.beginStep.pc.toNat ≤ 4094 := hi.pc_le
  exact
    { mem_wf := State.wf_mem_effect (s := s.beginStep) hmem (State.check_beginStep i ▸ hcheck)
      pc_le := State.pc_effect_le hpc hstack i
      stack_le := State.stack_effect_le hpc hstack i
      no_snapshot := rfl }

/-- Initialization writes the whole state but the draw counter, which the invariant does not speak of (R261). -/
theorem State.inv_initialized (s : State) (chg : Bool) : (s.initialized chg).Inv where
  mem_wf := ⟨List.Pairwise.nil, fun _ h => absurd h List.not_mem_nil⟩
  pc_le := (by decide : 0x200 ≤ 4098)
  stack_le k := by
    show ((Vector.replicate 16 (0 : Word))[k]).toNat ≤ 4094
    simp
  no_snapshot := rfl

theorem State.inv_resetWith (chg : Bool) : (State.resetWith chg).Inv := State.inv_initialized (State.resetWith chg) chg

/-- Settles O53: the state after reset is what initialization leaves. -/
theorem resetMeetsTheInvariant : Obligations.ResetMeetsTheInvariant := ⟨State.inv_resetWith, State.inv_resetWith _⟩

theorem inv_of_keyEvent {k : Nat} {pressed : Bool} {s t : State} (hinv : s.Inv) (h : keyEvent k pressed s = .next t) : t.Inv := by
  unfold keyEvent at h
  split at h
  · cases h
    obtain ⟨hmem, hpc, hstack, hkey⟩ := hinv
    exact ⟨hmem, hpc, hstack, hkey⟩
  · cases h

/-- A load that fits ends inside memory (R263). -/
theorem State.inv_loaded {s : State} (hinv : s.Inv) {bs : List Byte} (h : bs.length ≤ Config.maxProgLen) : (s.loaded bs).Inv := by
  obtain ⟨hmem, hpc, hstack, hkey⟩ := hinv
  have hfits : Config.progBase + bs.length ≤ 4096 := by simp at h ⊢; omega
  exact ⟨Memory.wf_writeBlock hmem bs hfits, hpc, hstack, hkey⟩

theorem inv_of_hostStep {op : HostOp} {s t : State} (hinv : s.Inv) (h : hostStep op s = .next t) : t.Inv := by
  cases op with
  | init chg => cases h; exact s.inv_initialized chg
  | load bs =>
    simp only [hostStep] at h
    split at h
    · cases h
    · next hlen =>
      cases h
      exact State.inv_loaded hinv (Nat.le_of_not_gt hlen)
  | press k | release k => exact inv_of_keyEvent hinv h
  | chgClear =>
    cases h
    obtain ⟨hmem, hpc, hstack, hkey⟩ := hinv
    exact ⟨hmem, hpc, hstack, hkey⟩

/-- Settles O54: the invariant holds after the first initialization and every move of the driver keeps it. -/
theorem hostOperationsKeepTheInvariant : Obligations.HostOperationsKeepTheInvariant := by
  refine ⟨fun _ _ _ => inv_of_hostStep, fun s h => ?_⟩
  induction h with
  | init chg => exact State.inv_resetWith chg
  | host op _ hop ih => exact inv_of_hostStep ih hop
  | step _ hstep ih => exact stepKeepsTheInvariant _ _ ih hstep

end Sys2Proof.Machine

namespace Sys2Proof.Machine

/-! ### What no program can observe (10_state.md R26, R30) -/

/-- The state with other values of the changed flag and the sound timer. -/
def State.silent (s : State) (chg : Bool) (st : Byte) : State := s.setBlock { s.block with CHG := chg, ST := st }

/-- Two drawings that show the same but for the changed flag. -/
def Drawing.SameButChanged (d e : Drawing) : Prop := d.fb = e.fb ∧ d.collision = e.collision

theorem Drawing.SameButChanged.pixel {d e : Drawing} (h : d.SameButChanged e) (x0 y0 : Byte) (r c : Nat) (row : Byte) :
    (Drawing.pixel x0 y0 r c row d).SameButChanged (Drawing.pixel x0 y0 r c row e) := by
  obtain ⟨hfb, hcol⟩ := h
  simp [Drawing.SameButChanged, Drawing.pixel, hfb, hcol]

/-- A draw neither reads the changed flag for the pixels nor for the collision (R158, R160). -/
theorem Drawing.SameButChanged.rows {d e : Drawing} (h : d.SameButChanged e) (x0 y0 : Byte) (r : Nat) (rows : List Byte) :
    (Drawing.rows x0 y0 r rows d).SameButChanged (Drawing.rows x0 y0 r rows e) := by
  induction rows generalizing r d e with
  | nil => exact h
  | cons row rows ih => exact ih (List.foldl_rel h fun c _ _ _ hce => hce.pixel x0 y0 r c row) (r + 1)

theorem Block.draw_silent (b : Block) (chg : Bool) (st x0 y0 : Byte) (rows : List Byte) :
    ∃ chg', Block.draw x0 y0 rows { b with CHG := chg, ST := st } =
      ({ (b.draw x0 y0 rows).1 with CHG := chg', ST := st }, (b.draw x0 y0 rows).2) := by
  have hstart : Drawing.SameButChanged { fb := b.FB, chg := chg, collision := false }
      { fb := b.FB, chg := b.CHG, collision := false } := ⟨rfl, rfl⟩
  obtain ⟨hfb, hcol⟩ := hstart.rows x0 y0 0 rows
  exact ⟨_, Prod.ext (congrArg (fun fb => Block.mk fb _ b.DT st) hfb) hcol⟩

/-- An instruction does the same whatever the two hold, and leaves states that differ in them only. -/
theorem State.effect_silent (s : State) (chg : Bool) (st : Byte) (i : Instr) :
    ∃ chg' st', (s.silent chg st).effect i = (s.effect i).silent chg' st' := by
  cases i with
  | cls => exact ⟨true, st, rfl⟩
  | ldST x => exact ⟨chg, s.reg x, rfl⟩
  | drw x y n =>
    obtain ⟨chg', hdraw⟩ := s.block.draw_silent chg st (s.reg x) (s.reg y) (s.spriteRows n)
    exact ⟨chg', st, congrArg (s.silent chg st).withDraw hdraw⟩
  | _ => exact ⟨chg, st, rfl⟩

theorem State.fetch_silent (s : State) (chg : Bool) (st : Byte) : (s.silent chg st).fetch = s.fetch := rfl

theorem State.check_silent (s : State) (chg : Bool) (st : Byte) (i : Instr) : (s.silent chg st).check i = s.check i := by
  cases i <;> rfl

/-- Settles O51: fetch and checks read neither of the two, so the errors agree; the effects differ in the two only, and so do the
states after the tick. -/
theorem changedFlagAndSoundTimerAreInvisible : Obligations.ChangedFlagAndSoundTimerAreInvisible := by
  intro s chg st
  refine ⟨fun t h => ?next, fun f h => ?fault⟩
  case next =>
    obtain ⟨i, hi, hcheck, rfl⟩ := step_eq_next_iff_effect.mp h
    obtain ⟨chg', st', heff⟩ := s.beginStep.effect_silent chg st i
    refine ⟨chg', countDown st', step_eq_next_iff_effect.mpr ⟨i, hi, (s.check_silent chg st i).trans hcheck, ?_⟩⟩
    exact (congrArg State.endStep heff).symm
  case fault => exact (step_eq_fault_congr (s.fetch_silent chg st) (s.check_silent chg st)).mpr h

end Sys2Proof.Machine

namespace Sys2Proof.Machine

/-! ### Timers over Steps (45_timers.md) -/

/-- Settles O34: the Step ends in the tick of what the execute phase left. -/
theorem everyStepTicksOnce : Obligations.EveryStepTicksOnce := by
  intro s t h
  obtain ⟨i, hi, hcheck, rfl⟩ := step_eq_next_iff_effect.mp h
  refine ⟨i, s.beginStep.effect i, hi, exec_eq_next_iff.mpr ⟨State.check_beginStep i ▸ hcheck, rfl⟩, toNat_countDown _,
    toNat_countDown _, s.beginStep.DT_effect, s.beginStep.ST_effect, fun _ _ => rfl, rfl, rfl, fun _ => rfl, ⟨rfl, fun _ => rfl⟩, rfl,
    ⟨fun _ _ => rfl, rfl⟩, rfl⟩

/-- A Step of any other form lowers the delay timer by the tick alone. -/
theorem toNat_DT_step {s t : State} {i : Instr} (hi : s.executes i) (h : step s = .next t) (hdt : ∀ x, i ≠ .ldDT x) :
    t.block.DT.toNat = s.block.DT.toNat - 1 := by
  obtain ⟨j, u, hj, -, htick, -, hkeep, -⟩ := everyStepTicksOnce s t h
  obtain rfl := State.executes_unique hi hj
  rw [htick, hkeep hdt]

theorem toNat_ST_step {s t : State} {i : Instr} (hi : s.executes i) (h : step s = .next t) (hst : ∀ x, i ≠ .ldST x) :
    t.block.ST.toNat = s.block.ST.toNat - 1 := by
  obtain ⟨j, u, hj, -, -, htick, -, hkeep, -⟩ := everyStepTicksOnce s t h
  obtain rfl := State.executes_unique hi hj
  rw [htick, hkeep hst]

/-- A quantity that each Step of a run lowers by one, and not below 0, is `k` lower after `k` Steps. -/
theorem Runs.countdown {P : Instr → Prop} (timer : State → Nat)
    (hstep : ∀ {s t : State} {i : Instr}, s.executes i → step s = .next t → P i → timer t = timer s - 1)
    {k : Nat} {s t : State} (h : Runs P k s t) : timer t = timer s - k := by
  induction h with
  | done s => rfl
  | more hi hP hs _ ih => rw [ih, hstep hi hs hP]; omega

/-- Settles O36: each timer is a countdown along a run without its one write. -/
theorem timersRunDownOverSteps : Obligations.TimersRunDownOverSteps :=
  ⟨fun _ _ _ => Runs.countdown (fun s => s.block.DT.toNat) toNat_DT_step,
    fun _ _ _ => Runs.countdown (fun s => s.block.ST.toNat) toNat_ST_step⟩

/-! ### Stores to memory (46_index_memory.md) -/

/-- R218: byte `r` of a register block store is register `r`. -/
theorem State.read_mem_storeRegs (s : State) {x r : RegIdx} (h : r ≤ x) :
    (s.effect (.storeRegs x)).mem.read (s.I.toNat + r.val) = s.reg r := by
  have hr : r.val < (s.regsUpTo x).length := by rw [State.length_regsUpTo]; exact Nat.lt_succ_of_le h
  rw [s.mem_effect]
  exact (Memory.read_writeBlock_inside _ _ _ hr).trans (s.getElem_regsUpTo x r.val hr)

/-- R217: byte `k` of LD B is digit `k`. -/
theorem State.read_mem_ldB (s : State) (x : RegIdx) {k : Nat} (h : k < 3) :
    (s.effect (.ldB x)).mem.read (s.I.toNat + k) = (bcdDigits (s.reg x))[k]'h := by
  rw [s.mem_effect]
  exact Memory.read_writeBlock_inside _ _ _ h

/-- Settles O42: the two bytes at the next instruction's address are bytes `r` and `r + 1` of the block just stored. -/
theorem storeIsSeenByTheNextFetch : Obligations.StoreIsSeenByTheNextFetch := by
  intro x r q s hi hrange hq hqx haddr
  have hcheck : s.check (.storeRegs x) = none := map_offending_eq_none.mpr (.inr (by omega))
  have hx : q.val ≤ x.val := hqx
  have hr : r ≤ x := Fin.le_def.mpr (by omega)
  have hnext : (s.pc + 2).toNat = s.I.toNat + r.val := by
    rw [State.indexAddr_eq] at haddr
    rw [haddr]; bv_omega
  obtain ⟨w, hw, -, hhigh, hlow⟩ := fetchIsBigEndian (s.beginStep.effect (.storeRegs x)).endStep
    (show (s.pc + 2).toNat ≤ 4094 by omega)
  refine ⟨_, w, step_eq_next_iff_effect.mpr ⟨_, hi, hcheck, rfl⟩, hw, hhigh.trans ?high, hlow.trans ?low⟩
  case high =>
    exact (congrArg _ hnext).trans (s.beginStep.read_mem_storeRegs hr)
  case low =>
    have hnext' : (s.pc + 2).toNat + 1 = s.I.toNat + q.val := by omega
    exact (congrArg _ hnext').trans (s.beginStep.read_mem_storeRegs hqx)

end Sys2Proof.Machine

namespace Sys2Proof.Machine

/-! ### Call and return (40_control_flow.md section 2) -/

/-- Settles O20: the popped entry is the one the call pushed. -/
theorem returnComesBackAfterTheCall : Obligations.ReturnComesBackAfterTheCall := by
  intro nnn s t u hcall hsp hstack
  obtain ⟨hcheck, rfl⟩ := exec_eq_next_iff.mp hcall
  rw [State.sp_effect] at hsp
  rw [State.stack_effect] at hstack
  have hroom : s.sp.val < 16 := by
    have : s.sp.val ≠ 16 := by simpa [State.check] using hcheck
    omega
  have hcount : u.sp.val = s.sp.val + 1 := by
    rw [hsp]; exact Fin.val_add_one_of_lt (Fin.lt_def.mpr hroom)
  refine ⟨u.effect .ret, exec_eq_next_iff.mpr ⟨by simp [State.check, hcount], rfl⟩, ?pc, ?sp⟩
  case pc =>
    rw [u.pc_effect]
    simp [hcount, hstack]
  case sp =>
    rw [u.sp_effect, hsp]
    exact add_sub_cancel_right s.sp 1

/-! ### Drawing (43_sprite_framebuffer.md) -/

/-- R160, R166 at the block: the collision of a draw is that it covers a pixel that was set. -/
theorem Block.collision_draw (b : Block) (x0 y0 : Byte) {rows : List Byte} (hl : rows.length ≤ 32) :
    (b.draw x0 y0 rows).2 = true ↔ ∃ px py, SpriteCovers x0 y0 rows px py ∧ b.FB.pixel px py = true := by
  simp only [spriteCovers_iff]
  exact (Drawing.rows_collision x0 y0 rows hl 0 _).trans (by simp)

/-- R159 at the block: a draw sets the changed flag exactly if it covers some pixel. -/
theorem Block.CHG_draw (b : Block) (x0 y0 : Byte) (rows : List Byte) :
    (b.draw x0 y0 rows).1.CHG = true ↔ b.CHG = true ∨ ∃ px py, SpriteCovers x0 y0 rows px py := by
  simp only [spriteCovers_iff]
  exact Drawing.rows_chg x0 y0 rows 0 _

/-- R157: coverage depends on the start modulo the grid's sizes only. -/
theorem spriteCovers_congr {x0 x1 y0 y1 : Byte} (hx : x0.toNat % 64 = x1.toNat % 64) (hy : y0.toNat % 32 = y1.toNat % 32)
    (rows : List Byte) (px : PixX) (py : PixY) : SpriteCovers x0 y0 rows px py ↔ SpriteCovers x1 y1 rows px py := by
  have hcol (c : Nat) : (x0.toNat + c) % 64 = (x1.toNat + c) % 64 := by omega
  have hrow (r : Nat) : (y0.toNat + r) % 32 = (y1.toNat + r) % 32 := by omega
  simp only [SpriteCovers, hcol, hrow]

/-- Settles O29: the second draw inverts the same pixels again, and meets each of them inverted. -/
theorem drawingTwiceRestoresThePixels : Obligations.DrawingTwiceRestoresThePixels := by
  intro b x0 y0 x1 y1 rows hl hx hy
  have hl32 : rows.length ≤ 32 := by omega
  have hsame := spriteCovers_congr hx hy rows
  have hfirst := b.pixel_draw x0 y0 hl32
  refine ⟨fun px py => ?pixels, b.collision_draw x0 y0 hl32, ?second⟩
  case pixels =>
    rw [Bool.eq_iff_iff, Block.pixel_draw _ x1 y1 hl32, hfirst, ← hsame]
    by_cases hcov : SpriteCovers x0 y0 rows px py <;> simp [hcov]
  case second =>
    rw [Block.collision_draw _ x1 y1 hl32]
    refine exists_congr fun px => exists_congr fun py => ?_
    rw [← hsame, hfirst]
    exact and_congr_right fun hcov => by simp [hcov]

/-- Settles O26: the block's closed forms at the operands of DRW; the frame is O27's. -/
theorem drwClosedForm : Obligations.DrwClosedForm := by
  intro x y n s hn hrange
  have hl : (s.spriteRows n).length ≤ 15 := by rwa [State.length_spriteRows]
  have hcollision := s.block.collision_draw (s.reg x) (s.reg y) (Nat.le_trans hl (by decide))
  obtain ⟨t, ht, hpc, hI, hmem, hregs, htimers, hstack, hkeys, hdraws⟩ := drwLeavesTheRestAlone x y n s hn hrange
  obtain rfl : s.effect (.drw x y n) = t := (exec_eq_next_iff.mp ht).2
  have hVF : (s.effect (.drw x y n)).reg VF = flagByte (s.block.draw (s.reg x) (s.reg y) (s.spriteRows n)).2 := by
    simp [State.effect, State.withDraw]
  simp only [State.drwCovers_iff]
  refine ⟨_, ht, drawInvertsExactlyTheCoveredPixels s.block _ _ _ hl, fun hhit => ?hit, fun hmiss => ?miss,
    s.block.CHG_draw _ _ _, hpc, hregs, hI, hmem, hstack, hkeys, htimers, hdraws⟩
  case hit => rw [hVF, hcollision.mpr hhit, flagByte_true]
  case miss => rw [hVF, Bool.eq_false_iff.mpr (mt hcollision.mp hmiss), flagByte_false]

end Sys2Proof.Machine

namespace Sys2Proof.Machine

/-! ### Words written out, fetch and the Step -/

/-- Settles O1: each is the canonical word of its instruction. -/
theorem writtenWordsDecode : Obligations.WrittenWordsDecode :=
  ⟨decodeWord_encode (i := .cls) rfl, decodeWord_encode (i := .jp 0xABC) rfl, decodeWord_encode (i := .seImm 10 2) rfl,
    decodeWord_encode (i := .addReg 1 2) rfl, decodeWord_encode (i := .ldI 0x2F0) rfl, decodeWord_encode (i := .rnd 1 0x0F) rfl,
    decodeWord_encode (i := .drw 10 11 12) rfl, decodeWord_encode (i := .sknp 4) rfl, decodeWord_encode (i := .ldFromDT 3) rfl,
    decodeWord_encode (i := .storeRegs 1) rfl⟩

/-- Settles O7: the bytes at `pc` are fetched and decode, so the Step runs them; what the tick does is its two countdowns. -/
theorem stepRunsTheDecodedInstruction : Obligations.StepRunsTheDecodedInstruction := by
  intro s i hpc hdec
  have hi : s.executes i := ⟨_, s.fetch_ok hpc, hdec⟩
  refine ⟨fun u hu => step_eq_next_iff.mpr ⟨i, u, hi, hu, rfl⟩, fun f hf => step_eq_fault_iff.mpr (.inr (.inr ⟨i, hi, hf⟩)), rfl,
    fun u => ⟨rfl, toNat_countDown _, toNat_countDown _, rfl⟩⟩

/-- Settles O9: both are the fetch error, whose address is the larger of `pc` and 4096. -/
theorem fetchPastTheEndRaises : Obligations.FetchPastTheEndRaises := by
  intro s
  have hraise (h : 4094 < s.pc.toNat) : step s = .fault (.outOfRangeAccess (max s.pc.toNat 4096)) :=
    step_eq_fault_iff_check.mpr (.inl ⟨h, rfl⟩)
  refine ⟨fun h => ?past, fun h => ?last⟩
  case past => rw [hraise (by omega), Nat.max_eq_left h]
  case last => rw [hraise (by omega), h]; rfl

/-! ### Register load, arithmetic and logic (41_alu.md) -/

/-- Settles O12: one register write and an advance each. -/
theorem addImmediateAndCopyWriteNoFlag : Obligations.AddImmediateAndCopyWriteNoFlag := by
  intro x y nn s
  have hsum : ((s.setReg x (sum8 (s.reg x) nn)).advance.reg x).toNat = ((s.reg x).toNat + nn.toNat) % 256 := by
    rw [State.reg_advance, State.reg_setReg, if_pos rfl, toNat_sum8]
  have hcopy : (s.setReg x (s.reg y)).advance.reg x = s.reg y := by simp
  exact ⟨⟨_, rfl, hsum, sameRegsBut_setReg s x _, rfl, .of_eq rfl⟩, ⟨_, rfl, hcopy, sameRegsBut_setReg s x _, rfl, .of_eq rfl⟩,
    decodeWord_encode (i := .addImm x nn) rfl, decodeWord_encode (i := .ldReg x y) rfl⟩

/-- What the 8XY forms with a flag have in common: the flag, the result unless `X` is VF, and the frame. -/
theorem writeWithFlag_spec (s : State) (x : RegIdx) (v f : Byte) :
    (s.writeWithFlag x v f).reg VF = f ∧ (x ≠ VF → (s.writeWithFlag x v f).reg x = v) ∧
      SameRegsBut [x, VF] s (s.writeWithFlag x v f) ∧ (s.writeWithFlag x v f).pc = s.pc + 2 ∧
      SameBesideRegs s (s.writeWithFlag x v f) := by
  refine ⟨by simp, fun h => by simp [h], sameRegsBut_writeWithFlag s x v f, rfl, .of_eq rfl⟩

/-- Settles O13: the bits of the three results; VF is the 0 written as flag. -/
theorem bitwiseOperationsResetVF : Obligations.BitwiseOperationsResetVF := by
  intro x y s
  refine ⟨⟨_, rfl, ?or⟩, ⟨_, rfl, ?and⟩, ⟨_, rfl, ?xor⟩⟩
  case or =>
    obtain ⟨hf, hr, hframe⟩ := writeWithFlag_spec s x (s.reg x ||| s.reg y) 0
    exact ⟨hf, fun hx k _ => by rw [hr hx, BitVec.getLsbD_or], hframe⟩
  case and =>
    obtain ⟨hf, hr, hframe⟩ := writeWithFlag_spec s x (s.reg x &&& s.reg y) 0
    exact ⟨hf, fun hx k _ => by rw [hr hx, BitVec.getLsbD_and], hframe⟩
  case xor =>
    obtain ⟨hf, hr, hframe⟩ := writeWithFlag_spec s x (s.reg x ^^^ s.reg y) 0
    exact ⟨hf, fun hx k _ => by rw [hr hx, BitVec.getLsbD_xor], hframe⟩

theorem flagByte_decide (p : Prop) [Decidable p] : flagByte (decide p) = if p then 1 else 0 := by
  by_cases h : p <;> simp [h]

theorem notBorrowFlag_eq (a b : Byte) : notBorrowFlag a b = if b.toNat > a.toNat then 0 else 1 := by
  by_cases h : b.toNat > a.toNat <;> simp [notBorrowFlag, h]

/-- Settles O14: the sum modulo 256 and the carry flag. -/
theorem addReportsCarry : Obligations.AddReportsCarry := by
  intro x y s
  obtain ⟨hf, hr, hframe⟩ := writeWithFlag_spec s x (sum8 (s.reg x) (s.reg y)) (carryFlag (s.reg x) (s.reg y))
  exact ⟨_, rfl, hf.trans (flagByte_decide _), fun hx => by rw [hr hx, toNat_sum8], hframe⟩

/-- Settles O15: the difference modulo 256 and the not-borrow flag, in both directions. -/
theorem subtractionsReportNotBorrow : Obligations.SubtractionsReportNotBorrow := by
  intro x y s
  have hdirection (a b : Byte) := writeWithFlag_spec s x (diff8 a b) (notBorrowFlag a b)
  refine ⟨⟨_, rfl, ?sub⟩, ⟨_, rfl, ?subn⟩⟩
  case sub =>
    obtain ⟨hf, hr, hframe⟩ := hdirection (s.reg x) (s.reg y)
    exact ⟨hf.trans (notBorrowFlag_eq _ _), fun hx => by rw [hr hx, toNat_diff8], hframe⟩
  case subn =>
    obtain ⟨hf, hr, hframe⟩ := hdirection (s.reg y) (s.reg x)
    exact ⟨hf.trans (notBorrowFlag_eq _ _), fun hx => by rw [hr hx, toNat_diff8], hframe⟩

theorem toNat_shrFlag (b : Byte) : (shrFlag b).toNat = b.toNat / 2 * 2 + 1 := by
  have hrest : (shrFlag b).toNat / 2 = b.toNat / 2 := by simp [shrFlag, Nat.or_div_two]
  have hlow : (shrFlag b).toNat % 2 = 1 := by simp [shrFlag]
  omega

theorem toNat_shlFlag (b : Byte) : (shlFlag b).toNat = b.toNat / 128 := by
  have htop : b.getLsbD 7 = decide (128 ≤ b.toNat) := b.msb_eq_getLsbD_last.symm.trans b.msb_eq_decide
  rw [shlFlag, htop, flagByte_decide]
  split
  · show 1 = b.toNat / 128
    omega
  · show 0 = b.toNat / 128
    omega

/-- Settles O16: halving and doubling `Vy`, with their flags. -/
theorem shiftsReadVy : Obligations.ShiftsReadVy := by
  intro x y s
  refine ⟨⟨_, rfl, ?shr⟩, ⟨_, rfl, ?shl⟩⟩
  case shr =>
    obtain ⟨hf, hr, hframe⟩ := writeWithFlag_spec s x (shiftRight8 (s.reg y)) (shrFlag (s.reg y))
    exact ⟨(congrArg _ hf).trans (toNat_shrFlag _), fun hx => by rw [hr hx]; simp [shiftRight8, Nat.shiftRight_eq_div_pow], hframe⟩
  case shl =>
    obtain ⟨hf, hr, hframe⟩ := writeWithFlag_spec s x (shiftLeft8 (s.reg y)) (shlFlag (s.reg y))
    exact ⟨(congrArg _ hf).trans (toNat_shlFlag _), fun hx => by rw [hr hx]; simp [shiftLeft8, Nat.shiftLeft_eq], hframe⟩

/-! ### Control transfer (40_control_flow.md) -/

/-- An executed instruction whose check passes makes the Step go on with its effect. -/
theorem step_of_check {s : State} {i : Instr} (hi : s.executes i) (hcheck : s.check i = none) :
    step s = .next (s.beginStep.effect i).endStep :=
  step_eq_next_iff_effect.mpr ⟨i, hi, hcheck, rfl⟩

/-- Settles O17: the jump is one write of `pc`; from 0xFFF the next fetch is past the end. -/
theorem jumpSetsProgramCounter : Obligations.JumpSetsProgramCounter := by
  refine ⟨fun nnn s => ⟨⟨_, rfl, toNat_addrOperand nnn, fun _ _ => rfl, .of_eq rfl⟩, decodeWord_encode (i := .jp nnn) rfl⟩,
    fun s hi => ⟨_, step_of_check hi rfl, ?_⟩⟩
  exact (fetchPastTheEndRaises _).2 (toNat_addrOperand 0xFFF)

/-- Settles O18: the push at entry `k`, or the failed check. -/
theorem callPushesItsOwnAddress : Obligations.CallPushesItsOwnAddress := by
  intro nnn s
  refine ⟨fun k hk => ?room, fun hfull => exec_eq_fault_iff.mpr (State.check_call_eq_some.mpr ⟨hfull, rfl⟩)⟩
  have hcheck : s.check (.call nnn) = none := if_neg (by omega)
  have hsp : (s.sp + 1).val = s.sp.val + 1 := Fin.val_add_one_of_lt (Fin.lt_def.mpr (show s.sp.val < 16 by omega))
  have hentry (j : Fin 16) : (s.effect (.call nnn)).stack[j] = if j = k then s.pc else s.stack[j] := by
    have hidx : s.sp.val = j.val ↔ j = k := by rw [Fin.ext_iff, hk, eq_comm]
    rw [State.stack_effect]
    simp only [Fin.getElem_fin, Vector.getElem_setIfInBounds, hidx]
  refine ⟨_, exec_eq_next_iff.mpr ⟨hcheck, rfl⟩, toNat_addrOperand nnn, hsp, by rw [hentry, if_pos rfl],
    fun j hj => by rw [hentry, if_neg hj], fun _ _ => rfl, rfl, fun _ => rfl, ⟨rfl, rfl⟩, ⟨fun _ _ => rfl, rfl⟩, ⟨rfl, rfl⟩, rfl⟩

/-- Settles O19: the pop of entry `k`, or the failed check. -/
theorem returnPopsAndAddsTwo : Obligations.ReturnPopsAndAddsTwo := by
  intro s
  refine ⟨fun k hk => ?used, fun hempty => exec_eq_fault_iff.mpr (State.check_ret_eq_some.mpr ⟨hempty, rfl⟩)⟩
  have hcheck : s.check .ret = none := if_neg (by omega)
  have hexec : exec .ret s = .next (s.effect .ret) := exec_eq_next_iff.mpr ⟨hcheck, rfl⟩
  have hsp : (s.sp - 1).val = k.val := by
    rw [Fin.val_sub_one_of_ne_zero (Fin.ne_of_val_ne (by simp [hk])), hk]; rfl
  exact ⟨_, hexec, everyInstructionsEffectOnPc .ret s _ hexec k hk, hsp, fun _ => rfl, fun _ _ => rfl, rfl, fun _ => rfl, ⟨rfl, rfl⟩,
    ⟨fun _ _ => rfl, rfl⟩, ⟨rfl, rfl⟩, rfl⟩

/-- R77: the low nibble of 5XYn and 9XYn is not examined. -/
theorem decodeWord_packNibbles_seReg (x y n : Fin 16) : decodeWord (packNibbles 0x5 x y n) = .ok (.seReg x y) := by
  simp [decodeWord]

theorem decodeWord_packNibbles_sneReg (x y n : Fin 16) : decodeWord (packNibbles 0x9 x y n) = .ok (.sneReg x y) := by
  simp [decodeWord]

/-- Settles O21: each skip moves `pc` by its comparison alone. -/
theorem skipsOnDifferenceAndRegisters : Obligations.SkipsOnDifferenceAndRegisters := by
  intro x y nn n s
  exact ⟨⟨_, rfl, by simp [immOperand], fun _ _ => rfl, .of_eq rfl⟩, ⟨_, rfl, by simp, fun _ _ => rfl, .of_eq rfl⟩,
    ⟨_, rfl, by simp, fun _ _ => rfl, .of_eq rfl⟩,
    decodeWord_encode (i := .sneImm x nn) rfl, decodeWord_packNibbles_seReg x y n, decodeWord_packNibbles_sneReg x y n⟩

end Sys2Proof.Machine

namespace Sys2Proof.Machine

/-! ### Index load and random (42_index_random.md) -/

/-- The frame of an instruction that writes registers, `I` and `pc` only. -/
theorem SameRest.of_eq {s t : State} (h : t = { s with V := t.V, I := t.I, pc := t.pc }) : SameRest s t := by
  rw [h]
  exact ⟨fun _ => rfl, ⟨rfl, fun _ => rfl⟩, ⟨rfl, rfl⟩, ⟨fun _ _ => rfl, rfl⟩, ⟨rfl, rfl⟩, rfl⟩

/-- Settles O22: one write of `I` and an advance. -/
theorem loadIndexSetsIndex : Obligations.LoadIndexSetsIndex := fun nnn _ =>
  ⟨⟨_, rfl, toNat_addrOperand nnn, fun _ _ => rfl, rfl, .of_eq rfl⟩, decodeWord_encode (i := .ldI nnn) rfl⟩

/-- R142: a draw is below 255, so a byte holds it. -/
theorem State.toNat_draw (s : State) : s.draw.toNat = (Config.rng s.draws).val :=
  Nat.mod_eq_of_lt (Nat.lt_trans (Config.rng s.draws).isLt (by decide))

/-- Settles O23: the masked draw; a bit that the mask has not is not in it. -/
theorem randomIsMaskedAndBounded : Obligations.RandomIsMaskedAndBounded := by
  intro x nn s
  have hreg : (s.drawn.setReg x (s.draw &&& nn)).advance.reg x = s.draw &&& nn := by simp
  have hbound : s.draw.toNat ≤ 254 := s.toNat_draw ▸ Nat.le_of_lt_succ (Config.rng s.draws).isLt
  refine ⟨_, rfl, hreg, s.toNat_draw, hbound, fun k _ hk => ?masked, rfl, sameRegsBut_setReg s.drawn x _, rfl, rfl, fun _ => rfl,
    ⟨rfl, fun _ => rfl⟩, ⟨rfl, rfl⟩, ⟨fun _ _ => rfl, rfl⟩, ⟨rfl, rfl⟩⟩
  case masked => exact (congrArg (·.getLsbD k) hreg).trans (by rw [BitVec.getLsbD_and, hk, Bool.and_false])

/-! ### CLS and DRW at its edges (43_sprite_framebuffer.md) -/

/-- R77: bits 11..8 of 0XE0 are not examined. -/
theorem decodeWord_packByte_cls (x : Fin 16) : decodeWord (packByte 0x0 x 0xE0) = .ok .cls := by
  simp [decodeWord, decodeGroup0]

/-- Settles O24: the block's CLEAR and an advance. -/
theorem clearBlanksAndMarksChanged : Obligations.ClearBlanksAndMarksChanged := fun _ =>
  ⟨⟨_, rfl, Framebuffer.pixel_blank, rfl, rfl, fun _ _ => rfl, rfl, fun _ => rfl, ⟨rfl, fun _ => rfl⟩, ⟨rfl, rfl⟩, ⟨rfl, rfl⟩, rfl⟩,
    decodeWord_packByte_cls⟩

/-- Settles O28: a missing row fails the check; without rows the block's DRAW changes nothing and collides with nothing. -/
theorem drwWithoutRowsOrOutOfRange : Obligations.DrwWithoutRowsOrOutOfRange := by
  intro x y n s
  refine ⟨fun hn hrange => exec_eq_fault_iff.mpr (State.check_drw_eq_some.mpr ⟨hn, hrange, rfl⟩), ?none⟩
  rintro rfl
  have hexec : exec (.drw x y 0) s = .next (s.setReg VF 0).advance := exec_drw_ok (.inl rfl) x y
  exact ⟨_, hexec, by simp, sameRegsBut_setReg s VF _, rfl, .of_eq rfl⟩

/-! ### Keypad (44_keypad.md) -/

theorem State.keyOf_eq (s : State) {v : Byte} {k : KeyIdx} (h : v.toNat = k.val) : s.keyOf v = s.keyAt k := by
  have hidx : Fin.ofNat 16 v.toNat = k := Fin.ext ((Nat.mod_eq_of_lt (by omega)).trans h)
  rw [State.keyOf, hidx]

/-- A register that holds a key number passes the check of SKP and of SKNP. -/
theorem State.check_skp_eq_none (s : State) {x : RegIdx} {k : KeyIdx} (h : (s.reg x).toNat = k.val) : s.check (.skp x) = none :=
  if_neg (by omega)

theorem State.check_sknp_eq_none (s : State) {x : RegIdx} {k : KeyIdx} (h : (s.reg x).toNat = k.val) : s.check (.sknp x) = none :=
  s.check_skp_eq_none h

theorem State.pc_skp (s : State) {x : RegIdx} {k : KeyIdx} (h : (s.reg x).toNat = k.val) :
    (s.effect (.skp x)).pc = if s.keyAt k then s.pc + 4 else s.pc + 2 := by
  rw [← s.keyOf_eq h]; rfl

theorem State.pc_sknp (s : State) {x : RegIdx} {k : KeyIdx} (h : (s.reg x).toNat = k.val) :
    (s.effect (.sknp x)).pc = if s.keyAt k then s.pc + 2 else s.pc + 4 := by
  rw [← s.keyOf_eq h]
  show (if !s.keyOf (s.reg x) then s.pc + 4 else s.pc + 2) = _
  cases s.keyOf (s.reg x) <;> rfl

/-- Settles O30: with a key number the skip is by that key, above it the check fails. -/
theorem skipsOnKeys : Obligations.SkipsOnKeys := by
  intro x s
  refine ⟨fun k hk => ⟨?skp, ?sknp⟩, fun h => ?above⟩
  case skp =>
    exact ⟨_, exec_eq_next_iff.mpr ⟨s.check_skp_eq_none hk, rfl⟩, s.pc_skp hk, fun _ _ => rfl, .of_eq rfl⟩
  case sknp =>
    exact ⟨_, exec_eq_next_iff.mpr ⟨s.check_sknp_eq_none hk, rfl⟩, s.pc_sknp hk, fun _ _ => rfl, .of_eq rfl⟩
  case above =>
    exact ⟨exec_eq_fault_iff.mpr (State.check_skp_eq_some.mpr ⟨h, rfl⟩),
      exec_eq_fault_iff.mpr (State.check_sknp_eq_some.mpr ⟨h, rfl⟩)⟩

/-- Settles O31: inside the Step `key[k]` is the snapshot, which is the key flag of the state before. -/
theorem stepTestsKeysAsTheyStand : Obligations.StepTestsKeysAsTheyStand := by
  intro x k s hk
  refine ⟨fun hi => ⟨_, step_of_check hi (s.check_skp_eq_none hk), s.beginStep.pc_skp hk, rfl⟩,
    fun hi => ⟨_, step_of_check hi (s.check_sknp_eq_none hk), s.beginStep.pc_sknp hk, rfl⟩⟩

/-- Settles O32: the poll writes `pc` at most. -/
theorem keyWaitPollsAndLoadsNothing : Obligations.KeyWaitPollsAndLoadsNothing := by
  intro x s
  have hexec : exec (.ldKey x) s = .next (s.effect (.ldKey x)) := exec_eq_next_iff.mpr ⟨rfl, rfl⟩
  obtain ⟨hpass, hstay⟩ := everyInstructionsEffectOnPc (.ldKey x) s _ hexec
  exact ⟨_, hexec, hpass, hstay, fun _ _ => rfl, .of_eq rfl⟩

/-! ### Timers (45_timers.md) -/

/-- Settles O33: one write to a register or one command to the block, and an advance. -/
theorem timerInstructionsMoveBytes : Obligations.TimerInstructionsMoveBytes := by
  intro x s
  have hread : (s.setReg x s.block.DT).advance.reg x = s.block.DT := by simp
  exact ⟨⟨_, rfl, hread, sameRegsBut_setReg s x _, rfl, .of_eq rfl⟩,
    ⟨_, rfl, rfl, rfl, fun _ _ => rfl, rfl, rfl, fun _ => rfl, ⟨rfl, fun _ => rfl⟩, ⟨rfl, rfl⟩, ⟨fun _ _ => rfl, rfl⟩, rfl⟩,
    ⟨_, rfl, rfl, rfl, fun _ _ => rfl, rfl, rfl, fun _ => rfl, ⟨rfl, fun _ => rfl⟩, ⟨rfl, rfl⟩, ⟨fun _ _ => rfl, rfl⟩, rfl⟩⟩

/-- Settles O35: the tick counts down what the execute phase left in the timer. -/
theorem timerReadAndWriteComeBeforeTheTick : Obligations.TimerReadAndWriteComeBeforeTheTick := by
  intro x s
  have hread : (s.beginStep.effect (.ldFromDT x)).reg x = s.block.DT := (s.beginStep.reg_setReg x x _).trans (if_pos rfl)
  exact ⟨fun hi => ⟨_, step_of_check hi rfl, hread, toNat_countDown _⟩, fun hi => ⟨_, step_of_check hi rfl, toNat_countDown _⟩,
    fun hi => ⟨_, step_of_check hi rfl, toNat_countDown _⟩⟩

/-! ### Index arithmetic and memory (46_index_memory.md) -/

/-- Settles O37: the sum in `I`, then the overflow flag. -/
theorem addToIndexReportsOverflow : Obligations.AddToIndexReportsOverflow := by
  intro x s
  have hVF : (s.effect (.addI x)).reg VF = indexOvfFlag s.I (s.reg x) :=
    ((s.setI _).reg_setReg VF VF _).trans (if_pos rfl)
  exact ⟨_, rfl, BitVec.toNat_ofNat _ _, hVF.trans (flagByte_decide _), sameRegsBut_setReg (s.setI _) VF _, rfl, .of_eq rfl⟩

/-- Settles O38: five times a byte fits in `I`. -/
theorem fontLookupMultipliesByFive : Obligations.FontLookupMultipliesByFive := by
  intro x s
  have hfits : (s.reg x).toNat * 5 < 2 ^ 16 := by omega
  exact ⟨_, rfl, (BitVec.toNat_ofNat _ _).trans (Nat.mod_eq_of_lt hfits), fun _ _ => rfl, rfl, .of_eq rfl⟩

/-- Settles O39: the three digits at their addresses, or the failed check. -/
theorem bcdStoresThreeDigits : Obligations.BcdStoresThreeDigits := by
  intro x s
  refine ⟨fun hrange => ?store, fun h => exec_eq_fault_iff.mpr (State.check_ldB_eq_some.mpr ⟨h, rfl⟩), fun _ => rfl,
    decodeWord_encode (i := .ldB x) rfl⟩
  have hcheck : s.check (.ldB x) = none := map_offending_eq_none.mpr (.inr (by omega))
  have hexec : exec (.ldB x) s = .next (s.effect (.ldB x)) := exec_eq_next_iff.mpr ⟨hcheck, rfl⟩
  have hdigit {k : Nat} (hk : k < 3) {d : Nat} (hd : ((bcdDigits (s.reg x))[k]'hk).toNat = d) :
      ((s.effect (.ldB x)).mem.read (s.indexAddr k)).toNat = d := (congrArg _ (s.read_mem_ldB x hk)).trans hd
  have hbyte {d : Nat} (hd : d < 256) : (BitVec.ofNat 8 d).toNat = d := Nat.mod_eq_of_lt hd
  exact ⟨_, hexec, hdigit (k := 0) (by decide) (hbyte (by omega)), hdigit (k := 1) (by decide) (hbyte (by omega)),
    hdigit (k := 2) (by decide) (hbyte (by omega)), onlyBcdAndBlockStoreWriteMemory (.ldB x) s _ hexec, fun _ _ => rfl, rfl, rfl,
    ⟨rfl, fun _ => rfl⟩, ⟨rfl, rfl⟩, ⟨fun _ _ => rfl, rfl⟩, ⟨rfl, rfl⟩, rfl⟩

/-- Settles O40: the registers at their addresses, or the failed check. -/
theorem storeWritesRegistersUpToX : Obligations.StoreWritesRegistersUpToX := by
  intro x s
  refine ⟨fun hrange => ?store, fun h => exec_eq_fault_iff.mpr (State.check_storeRegs_eq_some.mpr ⟨h, rfl⟩)⟩
  have hcheck : s.check (.storeRegs x) = none := map_offending_eq_none.mpr (.inr (by omega))
  have hexec : exec (.storeRegs x) s = .next (s.effect (.storeRegs x)) := exec_eq_next_iff.mpr ⟨hcheck, rfl⟩
  exact ⟨_, hexec, fun r hr => s.read_mem_storeRegs hr, onlyBcdAndBlockStoreWriteMemory (.storeRegs x) s _ hexec, fun _ _ => rfl, rfl,
    rfl, ⟨rfl, fun _ => rfl⟩, ⟨rfl, rfl⟩, ⟨fun _ _ => rfl, rfl⟩, ⟨rfl, rfl⟩, rfl⟩

/-- R219: which registers a block load writes, and with what. -/
theorem State.reg_loadRegs (s : State) (x r : RegIdx) :
    (s.effect (.loadRegs x)).reg r = if r.val < x.val + 1 then s.mem.read (s.I.toNat + r.val) else s.reg r :=
  getElem_loadBlock s.mem s.I.toNat (x.val + 1) s.V r

/-- Settles O41: the registers up to X from their addresses, or the failed check. -/
theorem loadReadsRegistersUpToX : Obligations.LoadReadsRegistersUpToX := by
  intro x s
  refine ⟨fun hrange => ?load, fun h => exec_eq_fault_iff.mpr (State.check_loadRegs_eq_some.mpr ⟨h, rfl⟩)⟩
  have hcheck : s.check (.loadRegs x) = none := map_offending_eq_none.mpr (.inr (by omega))
  refine ⟨_, exec_eq_next_iff.mpr ⟨hcheck, rfl⟩, fun r hr => ?upTo, fun r hr => ?above, rfl, .of_eq rfl⟩
  case upTo => rw [s.reg_loadRegs, if_pos (Nat.lt_succ_of_le hr)]; rfl
  case above => rw [s.reg_loadRegs, if_neg (Nat.not_lt.mpr hr)]

end Sys2Proof.Machine

namespace Sys2Proof.Machine

/-! ### Reset and host operations (70_reset_and_hazards.md) -/

/-- R31: past the sixteen glyphs every byte is 0 at reset. -/
theorem initialByte_of_ge {a : Nat} (h : 80 ≤ a) : initialByte a = 0 := by
  have hglyph : glyphs.getD (a / 5) [] = [] :=
    List.getD_eq_default _ _ (show 16 ≤ a / 5 by omega)
  rw [initialByte, hglyph, List.getD_nil]

/-- R38: the glyph bytes, written out. -/
theorem map_initialByte_glyphs :
    (List.range 80).map initialByte =
      [0xF0, 0x90, 0x90, 0x90, 0xF0] ++ [0x20, 0x60, 0x20, 0x20, 0x70] ++ [0xF0, 0x10, 0xF0, 0x80, 0xF0] ++
      [0xF0, 0x10, 0xF0, 0x10, 0xF0] ++ [0x90, 0x90, 0xF0, 0x10, 0x10] ++ [0xF0, 0x80, 0xF0, 0x10, 0xF0] ++
      [0xF0, 0x80, 0xF0, 0x90, 0xF0] ++ [0xF0, 0x10, 0x20, 0x40, 0x40] ++ [0xF0, 0x90, 0xF0, 0x90, 0xF0] ++
      [0xF0, 0x90, 0xF0, 0x10, 0xF0] ++ [0xF0, 0x90, 0xF0, 0x90, 0x90] ++ [0xE0, 0x90, 0xE0, 0x90, 0xE0] ++
      [0xF0, 0x80, 0x80, 0x80, 0xF0] ++ [0xE0, 0x90, 0x90, 0x90, 0xE0] ++ [0xF0, 0x80, 0xF0, 0x80, 0xF0] ++
      [0xF0, 0x80, 0xF0, 0x80, 0x80] := rfl

/-- Settles O55: the reset state field by field; with no cell listed memory reads as its reset contents. -/
theorem initializationLeavesTheResetState : Obligations.InitializationLeavesTheResetState := by
  refine ⟨fun s chg => ⟨s.initialized chg, rfl, fun r => ?regs, rfl, rfl, rfl, fun k => ?stack, fun k => ?keys,
    Framebuffer.pixel_blank, rfl, rfl, rfl, map_initialByte_glyphs, fun a => initialByte_of_ge, rfl, rfl⟩, fun chg => rfl,
    fun op hop => ?before⟩
  case regs => exact Vector.getElem_replicate r.isLt
  case stack => exact Vector.getElem_replicate k.isLt
  case keys => exact Vector.getElem_replicate k.isLt
  case before =>
    cases op with
    | step => rfl
    | host h =>
      cases h with
      | init chg => exact absurd rfl (hop chg)
      | _ => rfl

/-- Settles O56: a load that fits is one block write at 0x200; no other operation's error is LoadError. -/
theorem loadCopiesOrRaises : Obligations.LoadCopiesOrRaises := by
  intro bs s
  refine ⟨fun h => ?fits, fun h => if_pos h, fun n h => ?step, fun i n h => ?exec⟩
  case fits =>
    have hload : hostStep (.load bs) s = .next (s.loaded bs) := if_neg (Nat.not_lt.mpr h)
    exact ⟨_, hload, fun k hk => Memory.read_writeBlock_inside s.mem bs 0x200 hk,
      fun a ha => Memory.read_writeBlock_outside s.mem bs ha, rfl⟩
  case step =>
    rcases step_eq_fault_iff_check.mp h with ⟨-, hf⟩ | ⟨w, -, -, hf⟩ | ⟨i, -, hf⟩
    · cases hf
    · cases hf
    · rcases State.check_cases hf with hf | hf | ⟨a, hf⟩ <;> cases hf
  case exec =>
    rcases State.check_cases (exec_eq_fault_iff.mp h) with hf | hf | ⟨a, hf⟩ <;> cases hf

theorem keyEvent_ok (k : KeyIdx) (pressed : Bool) (s : State) : keyEvent k.val pressed s = .next (s.setKey k pressed) :=
  dif_pos k.isLt

theorem State.setKey_setKey (s : State) (k : KeyIdx) (pressed : Bool) : (s.setKey k pressed).setKey k pressed = s.setKey k pressed :=
  congrArg (fun keys => { s with keyState := keys }) (by simp)

/-- R194: a key event writes its own flag, and doing it twice is doing it once. -/
theorem keyEvent_spec (k : KeyIdx) (pressed : Bool) (s : State) :
    ∃ t, keyEvent k.val pressed s = .next t ∧ t.keyState[k] = pressed ∧
      (∀ j : KeyIdx, j ≠ k → t.keyState[j] = s.keyState[j]) ∧ t = { s with keyState := t.keyState } ∧
      keyEvent k.val pressed t = .next t := by
  refine ⟨s.setKey k pressed, keyEvent_ok k pressed s, ?same, fun j hj => ?other, rfl, ?again⟩
  case same => exact Vector.getElem_set_self k.isLt
  case other => exact Vector.getElem_set_ne k.isLt j.isLt (fun h => hj (Fin.ext h.symm))
  case again => rw [keyEvent_ok, State.setKey_setKey]

/-- Settles O57: a key event on one of the sixteen keys, and the refusal of any other number. -/
theorem keyEventsSetOneFlag : Obligations.KeyEventsSetOneFlag := fun k s =>
  ⟨keyEvent_spec k true s, keyEvent_spec k false s, fun _ hn => ⟨dif_neg (by omega), dif_neg (by omega)⟩⟩

/-! ### The end of a run (40_control_flow.md section 4) -/

/-- R111: the Step at a jump to itself is the tick. -/
theorem step_jump_to_itself {s : State} (hkey : s.key = none) (hi : s.executes (.jp (s.pc.setWidth 12))) :
    step s = .next { s with block := s.block.tick } := by
  have hpc : addrOperand (s.pc.setWidth 12) = s.pc := by
    have := hi.pc_le
    apply BitVec.eq_of_toNat_eq
    rw [toNat_addrOperand, BitVec.toNat_setWidth]
    omega
  have hstep : step s = .next { s with pc := addrOperand (s.pc.setWidth 12), key := none, block := s.block.tick } :=
    step_of_check hi rfl
  rw [hstep, hpc, ← hkey]

/-- Stopped timers stay at 0 (R203). -/
theorem Block.tick_of_stopped {b : Block} (hdt : b.DT = 0) (hst : b.ST = 0) : b.tick = b := by
  obtain ⟨fb, chg, dt, st⟩ := b
  obtain rfl : dt = 0 := hdt
  obtain rfl : st = 0 := hst
  rfl

/-- Settles O59: the Step is the tick, which at the end of a run changes nothing, so every further Step is the same. -/
theorem jumpToItselfOnlyTicks : Obligations.JumpToItselfOnlyTicks := by
  intro s hkey
  refine ⟨fun hi => ⟨_, step_jump_to_itself hkey hi, rfl, toNat_countDown _, toNat_countDown _, rfl⟩, ?ended⟩
  rintro ⟨hi, hdt, hst⟩
  have hstep : step s = .next s := by
    rw [step_jump_to_itself hkey hi, Block.tick_of_stopped hdt hst]
  refine ⟨hstep, fun k => ?_⟩
  induction k with
  | zero => trivial
  | succ k ih => exact ⟨s, hstep, ih⟩

end Sys2Proof.Machine
